-- ==== Sys2Proof/Word.lean ====
section
/-! DEFINITION. The word types of the block: 32-bit registers and command words, bytes, and the 19-bit bus address
(00_scope.md R7, 20_memory.md R80). -/

namespace Sys2Proof

/-- A register, a command word or a 32-bit bus datum (R7: "every register is 32 bits"). -/
abbrev Word := BitVec 32

/-- A byte-buffer cell (R7: "byte-buffer cells are 8 bits"). -/
abbrev Byte := BitVec 8

/-- A byte address of the bus window: 2^19 addresses, `0x00000` to `0x7FFFF` (R80). -/
abbrev Addr := BitVec 19

end Sys2Proof
end

