-- ==== Sys2Proof/Syntax.lean ====
section
/-! DEFINITION. The commands of the block (the rows of spec/opcode_table.json; 30_encoding.md R113, R114) and the events by
which a host drives it (20_memory.md R84; 70_reset_and_hazards.md R340). -/

namespace Sys2Proof

/-- A command. `s` is the bit S, the source's `with_stop_bit`; `w` is the field W, the source's `field_bit_width`, a number
of 8 bits (R111, R112; `Instr.wf` checks the 8 bits). -/
inductive Instr where
  | benc (s : Bool)
  | bdec (s : Bool) (w : Nat)
  | encHs (s : Bool)
  | encVer (s : Bool)
  | encNum (s : Bool)
  | encChr (s : Bool)
  | encRs (s : Bool)
  | decHs (s : Bool)
  | decVer (s : Bool)
  | decNum (s : Bool)
  | decChr (s : Bool)
  | decRs (s : Bool)
  | chksum
  | clr
deriving DecidableEq, Repr

/-- The protocol value types (R114, R190). -/
inductive ProtoType where
  | handshake
  | version
  | twelveBitNumber
  | character
  | receiveStatus
deriving DecidableEq, Repr

/-- Why a word is illegal: the kinds of R116. -/
inductive Illegal where
  /-- a reserved bit is set: c[7:5], c[15:11] or c[31:24] -/
  | reservedBits
  /-- OP is 0x0 or 0x7 to 0xF -/
  | unassignedOp
  /-- T is 5 to 7 with OP = 3 or 4 -/
  | unassignedType
  /-- a field the command does not use is not 0 (R115) -/
  | unusedField
deriving DecidableEq, Repr

/-- One event the host or the platform causes: a bus access (R84: 8-bit and 32-bit accesses are the only ones) or a
reset (R340). -/
inductive HostEvent where
  | readWord (a : Addr)
  | readByte (a : Addr)
  | writeWord (a : Addr) (w : Word)
  | writeByte (a : Addr) (b : Byte)
  | reset
deriving DecidableEq, Repr

/-- The data a read returns to the host. -/
inductive BusData where
  | word (w : Word)
  | byte (b : Byte)
deriving DecidableEq, Repr

end Sys2Proof
end

