-- ==== Sys2Proof/WellFormed.lean ====
section
/-! DEFINITION. Which terms of `Instr` are commands that a word encodes (30_encoding.md R112). -/

namespace Sys2Proof

/-- R111, R112: W is an 8-bit unsigned integer. Every other operand's type holds exactly its legal values. W = 0 and
W > 64 are legal operands: they fail when executed, with `E_WIDTH` (R116). -/
def Instr.wf : Instr → Bool
  | .bdec _ w => decide (w < 256)
  | .benc _ => true
  | .encHs _ => true
  | .encVer _ => true
  | .encNum _ => true
  | .encChr _ => true
  | .encRs _ => true
  | .decHs _ => true
  | .decVer _ => true
  | .decNum _ => true
  | .decChr _ => true
  | .decRs _ => true
  | .chksum => true
  | .clr => true

end Sys2Proof
end

