-- ==== Sys2Proof/Decode.lean ====
section
/-! DEFINITION. The decoder of command words, total over all 2^32 words (30_encoding.md R117), and the encoder written
from the same tables (R113 to R115, R118). -/

namespace Sys2Proof

/-- R8: `c[lo + len - 1 : lo]`, the number formed by `len` bits of `c` from bit `lo` up. -/
def bitsAt (c : Word) (lo len : Nat) : Nat := c.toNat / 2 ^ lo % 2 ^ len

/-- R114: the type a code T names; 5 to 7 name none. -/
def ProtoType.ofCode : Nat → Option ProtoType
  | 0 => some .handshake
  | 1 => some .version
  | 2 => some .twelveBitNumber
  | 3 => some .character
  | 4 => some .receiveStatus
  | _ => none

/-- R113: the ENC command of a type. -/
def encOf (s : Bool) : ProtoType → Instr
  | .handshake => .encHs s
  | .version => .encVer s
  | .twelveBitNumber => .encNum s
  | .character => .encChr s
  | .receiveStatus => .encRs s

/-- R113: the DEC command of a type. -/
def decOf (s : Bool) : ProtoType → Instr
  | .handshake => .decHs s
  | .version => .decVer s
  | .twelveBitNumber => .decNum s
  | .character => .decChr s
  | .receiveStatus => .decRs s

/-- The typed command of the code T, with the field W required to be 0 (R115, R117). -/
def decodeTyped (command : ProtoType → Instr) (t w : Nat) : Except Illegal Instr :=
  match ProtoType.ofCode t with
  | none => .error .unassignedType
  | some ty => if w = 0 then .ok (command ty) else .error .unusedField

/-- A command, if every field it does not use is 0 (R115). -/
def requireZero (allZero : Bool) (i : Instr) : Except Illegal Instr :=
  if allZero then .ok i else .error .unusedField

/-- R117, from the fields OP, S, T and W of a word whose reserved bits are 0. -/
def decodeFields (op : Nat) (s : Bool) (t w : Nat) : Except Illegal Instr :=
  match op with
  | 1 => requireZero (t == 0 && w == 0) (.benc s)
  | 2 => requireZero (t == 0) (.bdec s w)
  | 3 => decodeTyped (encOf s) t w
  | 4 => decodeTyped (decOf s) t w
  | 5 => requireZero (!s && t == 0 && w == 0) .chksum
  | 6 => requireZero (!s && t == 0 && w == 0) .clr
  | _ => .error .unassignedOp

/-- R117: the command a word stands for, or why it is illegal (R116). -/
def decode (c : Word) : Except Illegal Instr :=
  if bitsAt c 5 3 = 0 ∧ bitsAt c 11 5 = 0 ∧ bitsAt c 24 8 = 0 then
    decodeFields (bitsAt c 0 4) (bitsAt c 4 1 == 1) (bitsAt c 8 3) (bitsAt c 16 8)
  else .error .reservedBits

/-- R118: the word with the given fields and every reserved bit 0. The fields do not overlap, so their `|` is their sum. -/
def wordOf (op : Nat) (s : Bool) (t w : Nat) : Word :=
  BitVec.ofNat 32 (op + s.toNat * 2 ^ 4 + t * 2 ^ 8 + w * 2 ^ 16)

/-- R117, R118: the word of a command. -/
def encode : Instr → Word
  | .benc s => wordOf 1 s 0 0
  | .bdec s w => wordOf 2 s 0 w
  | .encHs s => wordOf 3 s 0 0
  | .encVer s => wordOf 3 s 1 0
  | .encNum s => wordOf 3 s 2 0
  | .encChr s => wordOf 3 s 3 0
  | .encRs s => wordOf 3 s 4 0
  | .decHs s => wordOf 4 s 0 0
  | .decVer s => wordOf 4 s 1 0
  | .decNum s => wordOf 4 s 2 0
  | .decChr s => wordOf 4 s 3 0
  | .decRs s => wordOf 4 s 4 0
  | .chksum => wordOf 5 false 0 0
  | .clr => wordOf 6 false 0 0

/-- The command the decoder reads from an instruction of `nbits` bits with the bits `w`, numbered as the opcode table
numbers them; the bits above `nbits` are 0. A command is one 32-bit word, so the word is the number. -/
def decodeTableWord (nbits w : Nat) : Option Instr := (decode (BitVec.ofNat 32 (w % 2 ^ nbits))).toOption

end Sys2Proof
end

