-- ==== Sys2Proof/Config.lean ====
section
/-! DEFINITION. What an implementation fixes (the capacities of 00_scope.md R6) and the free values the spec leaves open
(the contents of the buffers after a reset, 70_reset_and_hazards.md R341). -/

namespace Sys2Proof

/-- The two implementation parameters (R6): the value buffer's entries and each byte buffer's bytes. -/
structure Params where
  nv : Nat
  nb : Nat
deriving DecidableEq, Repr

/-- R6: `1 <= NV <= 12288` and `9 <= NB <= 131072`. -/
abbrev Params.wf (p : Params) : Prop := 1 ≤ p.nv ∧ p.nv ≤ 12288 ∧ 9 ≤ p.nb ∧ p.nb ≤ 131072

namespace Config

/-- R6, U12: "Reference configuration: NV = 4096, NB = 8192". DESIGN CHOICE (log 1): the parameters of `State.reset`. -/
def reference : Params := { nv := 4096, nb := 8192 }

/-! The free draws of R341 ("one draw per cell per reset"): constants with no body, applied to the number of the reset
(`State.drawNo`) and the cell's index. Nothing can be proved of a value of theirs (log 3). -/

/-- The draw of `x[i].raw` at a reset. -/
opaque drawRaw (reset i : Nat) : BitVec 64

/-- The draw of `x[i].w` at a reset. -/
opaque drawWidth (reset i : Nat) : BitVec 8

/-- The draw of `x[i].aux` at a reset. -/
opaque drawAux (reset i : Nat) : BitVec 5

/-- The draw of `IBUF[j]` at a reset. -/
opaque drawIbuf (reset j : Nat) : Byte

/-- The draw of `OBUF[j]` at a reset. -/
opaque drawObuf (reset j : Nat) : Byte

end Config

end Sys2Proof
end

