-- ==== Sys2Proof/Machine/State.lean ====
section
/-! DEFINITION. The state of the block (10_state.md R30 to R48), with the host's events still to come and its last read
data, the reasons a step can stop, and the machine right after a reset (70_reset_and_hazards.md R340, R341). -/

namespace Sys2Proof.Machine

/-- Cells of one kind by index, those written since the last reset and no others, indexes strictly rising. A cell that is
not listed holds its free draw (log 4). -/
abbrev Sparse (α : Type) := List (Nat × α)

/-- A byte buffer: (index, byte) pairs. -/
abbrev Memory := List Host.Cell

/-- The canonical form: indexes strictly rising, all of them below the number `n` of cells. No entry can equal what an
unlisted cell reads as, because that is no known value: a listed cell is a written one (log 4). -/
abbrev Sparse.wf {α : Type} (n : Nat) (m : Sparse α) : Prop :=
  m.Pairwise (fun c d => c.1 < d.1) ∧ ∀ c ∈ m, c.1 < n

/-- The canonical form of a byte buffer of `n` bytes. -/
abbrev Memory.wf (n : Nat) (m : Memory) : Prop := Sparse.wf n m

/-- The value buffer (R44, R45, R82): of each entry the two halves of `raw`, which the host writes apart, `w` and `aux`. -/
structure ValueBuffer where
  rawLo : Sparse Word
  rawHi : Sparse Word
  width : Sparse (BitVec 8)
  aux   : Sparse (BitVec 5)
deriving DecidableEq, Repr

/-- A value buffer no cell of which was written since the reset. -/
def ValueBuffer.unwritten : ValueBuffer := { rawLo := [], rawHi := [], width := [], aux := [] }

/-- The six error codes (R303). -/
inductive ErrCode where
  | cmd
  | width
  | value
  | enum
  | framing
  | capacity
deriving DecidableEq, Repr

/-- What `raise E_<NAME>(idx, val)` reports (R12, R302). -/
structure CmdError where
  code : ErrCode
  idx  : Word
  val  : BitVec 64
deriving DecidableEq, Repr

/-- The state. ID is hard-wired in the read of its register; CAP_NV and CAP_NB are `params` (R33 to R35). -/
structure State where
  /-- NV and NB (R6, R34, R35), constant (log 1) -/
  params : Params
  /-- CMD (R36) -/
  cmd    : Word
  /-- STATUS (R37) -/
  status : Word
  /-- ERRIDX (R38) -/
  errIdx : Word
  /-- ERRVAL = ERRVAL_HI << 32 | ERRVAL_LO (R39) -/
  errVal : BitVec 64
  /-- COUNT (R40) -/
  count  : Word
  /-- IN_LEN (R41) -/
  inLen  : Word
  /-- OUT_LEN (R42) -/
  outLen : Word
  /-- MISCNT (R43) -/
  misCnt : Word
  /-- the value buffer (R44) -/
  x      : ValueBuffer
  /-- IBUF (R46) -/
  ibuf   : Memory
  /-- OBUF (R47) -/
  obuf   : Memory
  /-- the model's own: which reset's draws the unwritten cells hold (R341, log 3) -/
  drawNo : Nat
  /-- the model's own: the events still to come, first one first (R91, log 2) -/
  host   : List HostEvent
  /-- the model's own: what the last bus access returned (log 2) -/
  rdata  : Option BusData
deriving DecidableEq, Repr

/-- Why the machine stops: a refused bus access (R86: "A model represents a refused access as a fault of the host's access").
Raised by `step` alone, on the access at the head of `State.host`, with no state changed. Safe: the block goes on with
the next access, the model stops (log 5). -/
inductive Fault where
  /-- R81: no register, entry or byte is at the address. Raised by any access. -/
  | unmapped (a : Addr)
  /-- R84: an 8-bit access to the registers or the value buffer. -/
  | wrongWidth (a : Addr)
  /-- R85: a 32-bit access with `addr mod 4 != 0`. -/
  | misaligned (a : Addr)
  /-- R85: a 32-bit access to a byte buffer that runs past its end. -/
  | pastEnd (a : Addr)
deriving DecidableEq, Repr

/-- Why an instruction has no outcome. -/
inductive Refusal where
  /-- The instruction has no meaning in this model yet. Raised by an arm of `exec`; none does now. Safe. -/
  | notModelled (mnemonic : String)
deriving DecidableEq, Repr

/-- The block with the parameters `p` right after its reset number `k` (R340, R341): the registers at their reset values, every
buffer cell unwritten, so that it holds the draw of that reset. -/
def State.resetWith (p : Params) (k : Nat) : State :=
  { params := p
    cmd := 0, status := 0, errIdx := 0, errVal := 0
    count := 0, inLen := 0, outLen := 0, misCnt := 0
    x := .unwritten, ibuf := [], obuf := []
    drawNo := k, host := [], rdata := none }

/-- The machine right after reset, in the reference configuration, with no event to come. -/
def State.reset : State := State.resetWith Config.reference 0

end Sys2Proof.Machine
end

