-- ==== Sys2Proof/Machine/Flags.lean ====
section
/-! DEFINITION. The flags: the fields of STATUS (10_state.md R37), what a command writes there (60_exceptions.md R301 to R303),
and the fields of AUX (10_state.md R45). -/

namespace Sys2Proof.Machine

/-- R37, bit 0: a command has executed since reset. -/
def statusDone (st : Word) : Bool := st.getLsbD 0

/-- R37, bit 1: the last command ended in an error. -/
def statusErr (st : Word) : Bool := st.getLsbD 1

/-- R37, bit 2: always 0. -/
def statusBusy (st : Word) : Bool := st.getLsbD 2

/-- R37, bit 3: the last command succeeded and left MISCNT != 0. -/
def statusChkmis (st : Word) : Bool := st.getLsbD 3

/-- R37, bits 7:4: the error code of the last command. -/
def statusEcode (st : Word) : BitVec 4 := st.extractLsb' 4 4

/-- R37, bit 8: some command has ended in an error since reset or the last CLR. -/
def statusSticky (st : Word) : Bool := st.getLsbD 8

/-- R303: the code of an error. -/
def ErrCode.code : ErrCode → BitVec 4
  | .cmd => 1
  | .width => 2
  | .value => 3
  | .enum => 4
  | .framing => 5
  | .capacity => 6

/-- A bit at a place of a word. -/
def flagAt (place : Nat) (b : Bool) : Word := (BitVec.ofBool b).setWidth 32 <<< place

/-- R301: `0x00000001 | CHKMIS << 3 | STICKY << 8`. -/
def successStatus (chkmis sticky : Bool) : Word := 0x00000001#32 ||| flagAt 3 chkmis ||| flagAt 8 sticky

/-- R302: `0x00000103 | code << 4`. -/
def errorStatus (e : ErrCode) : Word := 0x00000103#32 ||| e.code.setWidth 32 <<< 4

/-- R270: STATUS with STICKY cleared. -/
def clearSticky (st : Word) : Word := st &&& ~~~flagAt 8 true

/-- R45: an AUX field from its nibble K (bits 3:0) and its mismatch bit M (bit 4). -/
def auxOf (m : Bool) (k : BitVec 4) : BitVec 5 := BitVec.ofBool m ++ k

/-- R45, bits 3:0: the checksum nibble. -/
def auxK (a : BitVec 5) : BitVec 4 := a.extractLsb' 0 4

/-- R45, bit 4: DEC.CHR found that K differs from the recomputed checksum. -/
def auxM (a : BitVec 5) : Bool := a.getLsbD 4

end Sys2Proof.Machine
end

