-- ==== Sys2Proof/Machine/Ops.lean ====
section
/-! DEFINITION. The named operations over cells, buffers and registers, and the two ways a command ends: `done()` and
`raise` (60_exceptions.md R301, R302), which is this block's taking of an exception. -/

namespace Sys2Proof.Machine

/-! ## Cells -/

/-- The value written at index `a`, if the cell was written since the reset. -/
def Sparse.find {α : Type} : Sparse α → Nat → Option α
  | [], _ => none
  | (k, v) :: m, a => if k = a then some v else Sparse.find m a

/-- The cells with `v` written at index `a`, in canonical form again. -/
def Sparse.put {α : Type} : Sparse α → Nat → α → Sparse α
  | [], a, v => [(a, v)]
  | (k, u) :: m, a, v =>
    if k < a then (k, u) :: Sparse.put m a v
    else if k = a then (a, v) :: m
    else (a, v) :: (k, u) :: m

/-- Values numbered from `k` up. -/
def Sparse.number {α : Type} : Nat → List α → Sparse α
  | _, [] => []
  | k, v :: vs => (k, v) :: Sparse.number (k + 1) vs

/-- The cells with `vs` written at the indexes `0` to `vs.length - 1`. -/
def Sparse.putAll {α : Type} (m : Sparse α) (vs : List α) : Sparse α :=
  Sparse.number 0 vs ++ m.filter (fun c => decide (vs.length ≤ c.1))

/-! ## The buffers -/

/-- `x[i].raw[31:0]`: the written value, or the draw of the last reset (R44, R341). -/
def State.rawLoAt (s : State) (i : Nat) : Word :=
  (s.x.rawLo.find i).getD ((Config.drawRaw s.drawNo i).setWidth 32)

/-- `x[i].raw[63:32]` (R44, R341). -/
def State.rawHiAt (s : State) (i : Nat) : Word :=
  (s.x.rawHi.find i).getD ((Config.drawRaw s.drawNo i).extractLsb' 32 32)

/-- `x[i].raw` (R44). -/
def State.rawAt (s : State) (i : Nat) : BitVec 64 := s.rawHiAt i ++ s.rawLoAt i

/-- `x[i].w` (R44, R341). -/
def State.widthAt (s : State) (i : Nat) : BitVec 8 :=
  (s.x.width.find i).getD (Config.drawWidth s.drawNo i)

/-- `x[i].aux` (R45, R341). -/
def State.auxAt (s : State) (i : Nat) : BitVec 5 :=
  (s.x.aux.find i).getD (Config.drawAux s.drawNo i)

/-- `IBUF[j]` (R46, R341). -/
def State.ibufAt (s : State) (j : Nat) : Byte :=
  (Sparse.find s.ibuf j).getD (Config.drawIbuf s.drawNo j)

/-- `OBUF[j]` (R47, R341). -/
def State.obufAt (s : State) (j : Nat) : Byte :=
  (Sparse.find s.obuf j).getD (Config.drawObuf s.drawNo j)

/-- The operands of an encode: `x[0].raw` to `x[n-1].raw`. -/
def State.raws (s : State) (n : Nat) : List (BitVec 64) := (List.range n).map s.rawAt

/-- The input of a decode: `IBUF[0..L)`. -/
def State.inputBytes (s : State) (L : Nat) : List Byte := (List.range L).map s.ibufAt

/-- What a successful encode writes (R155, R193, R235): `OBUF[0..L)`, OUT_LEN and MISCNT. -/
def State.storeEncode (s : State) (L : Nat) (out : List Byte) : State :=
  { s with obuf := Sparse.putAll s.obuf out, outLen := BitVec.ofNat 32 L, misCnt := 0 }

/-- What a successful decode writes (R156, R194, R236): the entries, COUNT and MISCNT. -/
def State.storeDecode (s : State) (w : Nat) (vals : List (BitVec 64)) (auxs : List (BitVec 5)) (mis : Nat) : State :=
  { s with
    x :=
      { rawLo := s.x.rawLo.putAll (vals.map (·.setWidth 32))
        rawHi := s.x.rawHi.putAll (vals.map (·.extractLsb' 32 32))
        width := s.x.width.putAll (vals.map fun _ => BitVec.ofNat 8 w)
        aux := s.x.aux.putAll auxs }
    count := BitVec.ofNat 32 vals.length
    misCnt := BitVec.ofNat 32 mis }

/-- What a checksum computation writes into the entries (R235, R237): `x[i].aux` of entries 0 up. -/
def State.storeAux (s : State) (auxs : List (BitVec 5)) : State :=
  { s with x := { s.x with aux := s.x.aux.putAll auxs } }

/-! ## How a command ends -/

/-- R301, `done()`: STATUS from MISCNT as the command just left it and the old STICKY; ERRIDX and ERRVAL 0. -/
def State.done (s : State) : State :=
  { s with
    status := successStatus (s.misCnt != 0) (statusSticky s.status)
    errIdx := 0
    errVal := 0 }

/-- R302, `raise E(idx, val)`: STATUS, ERRIDX and ERRVAL, and nothing else. -/
def State.raise (s : State) (e : CmdError) : State :=
  { s with status := errorStatus e.code, errIdx := e.idx, errVal := e.val }

/-- R300: a command either completes with its effect or ends in exactly one error, with none of it. -/
def command (error : Option CmdError) (effect : State → State) (s : State) : Host.Outcome State Fault Refusal :=
  .next (match error with
    | some e => s.raise e
    | none => (effect s).done)

/-- R304: what an error about the element `k` records. -/
def errorAt (c : ErrCode) (k : Nat) (val : BitVec 64) : CmdError := { code := c, idx := BitVec.ofNat 32 k, val := val }

/-- R304: `E_CAPACITY` with its selector, for a quantity that must not exceed a capacity. -/
def checkCapacity (selector quantity capacity : Nat) : Option CmdError :=
  if quantity ≤ capacity then none else some (errorAt .capacity selector (BitVec.ofNat 64 quantity))

/-- R305: the error of the lowest index below `n` whose check fails. -/
def firstError (n : Nat) (check : Nat → Option CmdError) : Option CmdError := (List.range n).findSome? check

end Sys2Proof.Machine
end

