-- ==== Sys2Proof/Machine/Bus.lean ====
section
/-! DEFINITION. The bus window: its map, access widths, alignment and refusals (20_memory.md R80 to R87), the register reads
and writes (10_state.md R33 to R50), and what one host event does (R90, R91; 70_reset_and_hazards.md R340, R341). -/

namespace Sys2Proof.Machine

/-- The twelve registers (10_state.md section 2). -/
inductive RegName where
  | id
  | capNv
  | capNb
  | cmd
  | status
  | errIdx
  | errValLo
  | errValHi
  | count
  | inLen
  | outLen
  | misCnt
deriving DecidableEq, Repr

/-- What a 32-bit access reaches (R81 to R83). -/
inductive WordTarget where
  | reg (r : RegName)
  | rawLo (i : Nat)
  | rawHi (i : Nat)
  | width (i : Nat)
  | aux (i : Nat)
  | ibuf (j : Nat)
  | obuf (j : Nat)
deriving DecidableEq, Repr

/-- What an 8-bit access reaches (R83, R84). -/
inductive ByteTarget where
  | ibuf (j : Nat)
  | obuf (j : Nat)
deriving DecidableEq, Repr

/-- What a host event comes to. -/
inductive BusResult where
  /-- the event is over, with this state -/
  | complete (s : State)
  /-- a command word was stored in CMD and now executes (R36) -/
  | run (c : Word) (s : State)
  /-- the access is refused (R86) -/
  | refused (f : Fault)

/-! ## The address map -/

/-- R81: the base of the value buffer's window. -/
def valueBase : Nat := 0x10000

/-- R81: the base of IBUF's window. -/
def ibufBase : Nat := 0x40000

/-- R81: the base of OBUF's window. -/
def obufBase : Nat := 0x60000

/-- The offset of a register (10_state.md section 2). -/
def RegName.offset : RegName → Nat
  | .id => 0x00
  | .capNv => 0x04
  | .capNb => 0x08
  | .cmd => 0x0C
  | .status => 0x10
  | .errIdx => 0x14
  | .errValLo => 0x18
  | .errValHi => 0x1C
  | .count => 0x20
  | .inLen => 0x24
  | .outLen => 0x28
  | .misCnt => 0x2C

/-- The register at word `k` of the register region. -/
def regAtWord : Nat → Option RegName
  | 0 => some .id
  | 1 => some .capNv
  | 2 => some .capNb
  | 3 => some .cmd
  | 4 => some .status
  | 5 => some .errIdx
  | 6 => some .errValLo
  | 7 => some .errValHi
  | 8 => some .count
  | 9 => some .inLen
  | 10 => some .outLen
  | 11 => some .misCnt
  | _ => none

/-- R82: the word at offset `4 * k` of entry `i`. -/
def entryWord (i : Nat) : Nat → WordTarget
  | 0 => .rawLo i
  | 1 => .rawHi i
  | 2 => .width i
  | _ => .aux i

/-- The address is a register's (R81). -/
abbrev inRegisters (n : Nat) : Prop := n < 0x30

/-- The address lies in the value buffer's window (R81). -/
abbrev inValueBuffer (p : Params) (n : Nat) : Prop := valueBase ≤ n ∧ n < valueBase + 16 * p.nv

/-- The address lies in IBUF's window (R81). -/
abbrev inIbuf (p : Params) (n : Nat) : Prop := ibufBase ≤ n ∧ n < ibufBase + p.nb

/-- The address lies in OBUF's window (R81). -/
abbrev inObuf (p : Params) (n : Nat) : Prop := obufBase ≤ n ∧ n < obufBase + p.nb

/-- R81 to R85: what a 32-bit access at `a` reaches, or why it is refused. -/
def locateWord (p : Params) (a : Addr) : Except Fault WordTarget :=
  let n := a.toNat
  if inRegisters n then
    if n % 4 ≠ 0 then .error (.misaligned a)
    else match regAtWord (n / 4) with
      | some r => .ok (.reg r)
      | none => .error (.unmapped a)
  else if inValueBuffer p n then
    if n % 4 ≠ 0 then .error (.misaligned a)
    else .ok (entryWord ((n - valueBase) / 16) ((n - valueBase) % 16 / 4))
  else if inIbuf p n then
    if n % 4 ≠ 0 then .error (.misaligned a)
    else if n - ibufBase + 3 < p.nb then .ok (.ibuf (n - ibufBase))
    else .error (.pastEnd a)
  else if inObuf p n then
    if n % 4 ≠ 0 then .error (.misaligned a)
    else if n - obufBase + 3 < p.nb then .ok (.obuf (n - obufBase))
    else .error (.pastEnd a)
  else .error (.unmapped a)

/-- R81 to R84: what an 8-bit access at `a` reaches, or why it is refused. -/
def locateByte (p : Params) (a : Addr) : Except Fault ByteTarget :=
  let n := a.toNat
  if inRegisters n ∨ inValueBuffer p n then .error (.wrongWidth a)
  else if inIbuf p n then .ok (.ibuf (n - ibufBase))
  else if inObuf p n then .ok (.obuf (n - obufBase))
  else .error (.unmapped a)

/-! ## Reads and writes -/

/-- R33 to R43: what a read of a register returns. -/
def readReg (s : State) : RegName → Word
  | .id => 0x42534350
  | .capNv => BitVec.ofNat 32 s.params.nv
  | .capNb => BitVec.ofNat 32 s.params.nb
  | .cmd => s.cmd
  | .status => s.status
  | .errIdx => s.errIdx
  | .errValLo => s.errVal.setWidth 32
  | .errValHi => s.errVal.extractLsb' 32 32
  | .count => s.count
  | .inLen => s.inLen
  | .outLen => s.outLen
  | .misCnt => s.misCnt

/-- R36, R40, R41: the writable registers take the word; R50: a write to any other is accepted and ignored. -/
def writeReg (s : State) (w : Word) : RegName → State
  | .cmd => { s with cmd := w }
  | .count => { s with count := w }
  | .inLen => { s with inLen := w }
  | .id => s
  | .capNv => s
  | .capNb => s
  | .status => s
  | .errIdx => s
  | .errValLo => s
  | .errValHi => s
  | .outLen => s
  | .misCnt => s

/-- R87: four bytes as a word, the first in bits [7:0]. -/
def packBytes (b0 b1 b2 b3 : Byte) : Word := b3 ++ b2 ++ b1 ++ b0

/-- R87: byte `k` of a word. -/
def byteOfWord (w : Word) (k : Nat) : Byte := w.extractLsb' (8 * k) 8

/-- R44: `IBUF[j] <- b`. -/
def State.setIbuf (s : State) (j : Nat) (b : Byte) : State := { s with ibuf := Sparse.put s.ibuf j b }

/-- R82, R83, R87: what a 32-bit read returns. Bits [31:8] of WIDTH and [31:5] of AUX read 0. -/
def readWord (s : State) : WordTarget → Word
  | .reg r => readReg s r
  | .rawLo i => s.rawLoAt i
  | .rawHi i => s.rawHiAt i
  | .width i => (s.widthAt i).setWidth 32
  | .aux i => (s.auxAt i).setWidth 32
  | .ibuf j => packBytes (s.ibufAt j) (s.ibufAt (j + 1)) (s.ibufAt (j + 2)) (s.ibufAt (j + 3))
  | .obuf j => packBytes (s.obufAt j) (s.obufAt (j + 1)) (s.obufAt (j + 2)) (s.obufAt (j + 3))

/-- R82, R83, R87: what a 32-bit write stores; OBUF ignores it. -/
def writeWord (s : State) (w : Word) : WordTarget → State
  | .reg r => writeReg s w r
  | .rawLo i => { s with x := { s.x with rawLo := s.x.rawLo.put i w } }
  | .rawHi i => { s with x := { s.x with rawHi := s.x.rawHi.put i w } }
  | .width i => { s with x := { s.x with width := s.x.width.put i (w.setWidth 8) } }
  | .aux i => { s with x := { s.x with aux := s.x.aux.put i (w.setWidth 5) } }
  | .ibuf j =>
    (((s.setIbuf j (byteOfWord w 0)).setIbuf (j + 1) (byteOfWord w 1)).setIbuf (j + 2) (byteOfWord w 2)).setIbuf
      (j + 3) (byteOfWord w 3)
  | .obuf _ => s

/-- R83: what an 8-bit read returns. -/
def readByte (s : State) : ByteTarget → Byte
  | .ibuf j => s.ibufAt j
  | .obuf j => s.obufAt j

/-- R83: what an 8-bit write stores; OBUF ignores it. -/
def writeByte (s : State) (b : Byte) : ByteTarget → State
  | .ibuf j => s.setIbuf j b
  | .obuf _ => s

/-! ## Events -/

/-- R340, R341: a reset of the block. Every register takes its reset value and every cell a new draw; the parameters and the
host's events still to come are not the block's to reset. -/
def State.resetBlock (s : State) : State := { State.resetWith s.params (s.drawNo + 1) with host := s.host }

/-- A read's data, returned to the host; nothing of the block changes (R90). -/
def State.answer (s : State) (d : BusData) : State := { s with rdata := some d }

/-- A 32-bit write that reached its target: one to CMD stores the word and runs it (R36), any other only stores (R90). -/
def completeWriteWord (s : State) (w : Word) (t : WordTarget) : BusResult :=
  match t with
  | .reg .cmd => .run w (writeWord s w t)
  | t => .complete (writeWord s w t)

/-- What one host event does to a state from which it has been taken off the list. -/
def hostEvent (e : HostEvent) (s : State) : BusResult :=
  match e with
  | .readWord a =>
    match locateWord s.params a with
    | .ok t => .complete (s.answer (.word (readWord s t)))
    | .error f => .refused f
  | .readByte a =>
    match locateByte s.params a with
    | .ok t => .complete (s.answer (.byte (readByte s t)))
    | .error f => .refused f
  | .writeWord a w =>
    match locateWord s.params a with
    | .ok t => completeWriteWord s w t
    | .error f => .refused f
  | .writeByte a b =>
    match locateByte s.params a with
    | .ok t => .complete (writeByte s b t)
    | .error f => .refused f
  | .reset => .complete s.resetBlock

/-- The state with its next event taken off the list and no read data yet: what the event works on. After a refused access,
which changes no state (R86), a host that goes on is at this state (log 5). -/
def State.afterEvent (s : State) : State := { s with host := s.host.tail, rdata := none }

end Sys2Proof.Machine
end

