-- ==== Sys2Proof/Machine/Operands.lean ====
section
/-! DEFINITION. The operand forms: bit sequences and bytes (00_scope.md R9 to R11), the fields of an encode and a decode
(40_bitcodec.md R150 to R153), and the protocol value types' widths and codes (41_protocol_values.md R190 to R192). -/

namespace Sys2Proof.Machine

/-! ## Bits and bytes -/

/-- R11: `ceil_div(a, b)`. -/
def ceilDiv (a b : Nat) : Nat := (a + b - 1) / b

/-- R9: `bits_w(v)`, the `w` bits of `v`, most significant first. -/
def bitsOf : Nat → Nat → List Bool
  | 0, _ => []
  | w + 1, v => v.testBit w :: bitsOf w v

/-- R9: `val(s)`, the number whose most-significant-first bits are `s`. -/
def valOf (bs : List Bool) : Nat := bs.foldl (fun v b => 2 * v + b.toNat) 0

/-- R10: the bits of a byte buffer, byte 0 first, bit 7 first within each byte. -/
def bytesToBits (bytes : List Byte) : List Bool := bytes.flatMap fun b => bitsOf 8 b.toNat

/-- R10: the bytes of a bit sequence whose length is a multiple of 8. -/
def bitsToBytes : List Bool → List Byte
  | b7 :: b6 :: b5 :: b4 :: b3 :: b2 :: b1 :: b0 :: bs =>
    BitVec.ofNat 8 (valOf [b7, b6, b5, b4, b3, b2, b1, b0]) :: bitsToBytes bs
  | _ => []

/-! ## The fields of an encode -/

/-- The stop bit of one field: a 1 if S = 1 (R150). -/
def stopBits (s : Bool) : List Bool := if s then [true] else []

/-- R150: the fields `(w_i, r_i)` as one bit sequence. -/
def serialize (fields : List (Nat × Nat)) (s : Bool) : List Bool :=
  fields.flatMap fun f => bitsOf f.1 f.2 ++ stopBits s

/-- R150: `total_bits`, the sum of the effective widths `w_i + s`. -/
def totalBits (widths : List Nat) (s : Bool) : Nat := (widths.map (· + s.toNat)).sum

/-- R151: the number of padding bits of a chunk of `T` bits. -/
def padBits (T : Nat) : Nat := (8 - T % 8) % 8

/-- R151: how many of them stand in front. -/
def frontBits (T : Nat) : Nat := padBits T / 2

/-- R151: how many stand at the back. -/
def backBits (T : Nat) : Nat := padBits T - frontBits T

/-- R151: `frame(seq)`, the padded sequence as bytes. -/
def frame (seq : List Bool) : List Byte :=
  bitsToBytes
    (List.replicate (frontBits seq.length) false ++ seq ++ List.replicate (backBits seq.length) false)

/-! ## The fields of a decode -/

/-- R152: `value_count`, how many fields of effective width `w + s` `L` bytes hold. -/
def fieldCount (L w : Nat) (s : Bool) : Nat := 8 * L / (w + s.toNat)

/-- R152: how many bits are skipped in front of them. -/
def skipBits (L w : Nat) (s : Bool) : Nat := (8 * L - fieldCount L w s * (w + s.toNat)) / 2

/-- `n` consecutive fields of `e` bits each. -/
def takeFields (e : Nat) : Nat → List Bool → List Nat
  | 0, _ => []
  | n + 1, bits => valOf (bits.take e) :: takeFields e n (bits.drop e)

/-- R152: `unframe(B, s, w)`, the fields with their stop bits. -/
def unframe (bytes : List Byte) (s : Bool) (w : Nat) : List Nat :=
  takeFields (w + s.toNat) (fieldCount bytes.length w s)
    ((bytesToBits bytes).drop (skipBits bytes.length w s))

/-- R153: the value of a field, its stop bit stripped. -/
def stripStop (s : Bool) (f : Nat) : Nat := if s then f / 2 else f

/-- R153: with S = 1 a field whose stop bit is 0 is a framing error, recorded with its index and payload bits (R304). -/
def checkStop (s : Bool) (k f : Nat) : Option CmdError :=
  if s ∧ f % 2 = 0 then some (errorAt .framing k (BitVec.ofNat 64 (f / 2))) else none

/-! ## The protocol value types -/

/-- R190: the wire width of a type. -/
def wireWidth : ProtoType → Nat
  | .handshake => 21
  | .version => 10
  | .twelveBitNumber => 12
  | .character => 12
  | .receiveStatus => 9

/-- R191: Goodbye, ServerHello, SendingString, SendingNumber, ClientHello. -/
def handshakeCodes : List Nat := [0, 13, 39, 42, 72]

/-- R192: Unknown, Success, Failure. -/
def statusCodes : List Nat := [0, 1, 2]

/-- The operand check of a type's encoder (R190, R195, R197, R199, R201; R235 for Character): the error of the operand `v` at
index `i`, if it is outside the type's domain. -/
def checkOperand (ty : ProtoType) (i : Nat) (v : BitVec 64) : Option CmdError :=
  match ty with
  | .handshake => if v.toNat ∈ handshakeCodes then none else some (errorAt .enum i v)
  | .version => if v.toNat < 1024 then none else some (errorAt .value i v)
  | .twelveBitNumber => none
  | .character => if v.toNat < 256 then none else some (errorAt .value i v)
  | .receiveStatus => if v.toNat ∈ statusCodes then none else some (errorAt .enum i v)

/-- R190, the wire integer of an operand that passed its check, for every type but Character, whose wire integer needs the
whole string (R232). -/
def wireValue (ty : ProtoType) (v : BitVec 64) : Nat :=
  match ty with
  | .twelveBitNumber => v.toNat % 4096
  | .handshake => v.toNat
  | .version => v.toNat
  | .character => v.toNat
  | .receiveStatus => v.toNat

/-- The acceptance check of a type's decoder (R190, R196, R198, R200, R202; R233 for Character): the error of the decoded
integer `u` at index `k`, if it is no code of the type. -/
def checkDecoded (ty : ProtoType) (k u : Nat) : Option CmdError :=
  match ty with
  | .handshake => if u ∈ handshakeCodes then none else some (errorAt .enum k (BitVec.ofNat 64 u))
  | .version => none
  | .twelveBitNumber => none
  | .character => none
  | .receiveStatus => if u ∈ statusCodes then none else some (errorAt .enum k (BitVec.ofNat 64 u))

end Sys2Proof.Machine
end

