-- ==== Sys2Proof/Machine/BitCodec.lean ====
section
/-! DEFINITION. The bit-field serializer and deserializer commands BENC and BDEC (40_bitcodec.md R155, R156), and the parts every
encode and every decode shares (60_exceptions.md R305, R306). -/

namespace Sys2Proof.Machine

/-! ## What every encode shares -/

/-- R305, checks 2 to 4 in their order: COUNT against NV, every entry below COUNT, the output's bytes against NB. -/
def encodeError (check : Nat → Option CmdError) (L : Nat) (s : State) : Option CmdError :=
  (checkCapacity 0 s.count.toNat s.params.nv).or
    ((firstError s.count.toNat check).or (checkCapacity 1 L s.params.nb))

/-- An encode of the fields `(w_i, r_i)`: `OBUF[0..L) <- frame(serialize(fields, sb))`, `OUT_LEN <- L`, `MISCNT <- 0`, where
`L = ceil_div(T, 8)` (R151). -/
def encodeFields (fields : List (Nat × Nat)) (sb : Bool) (s : State) : State :=
  s.storeEncode (ceilDiv (totalBits (fields.map (·.1)) sb) 8) (frame (serialize fields sb))

/-! ## What every decode shares -/

/-- The fields of `IBUF[0..IN_LEN)` at width `w`, with their stop bits (R152). -/
def inputFields (w : Nat) (sb : Bool) (s : State) : List Nat := unframe (s.inputBytes s.inLen.toNat) sb w

/-- Their values (R153). -/
def inputValues (w : Nat) (sb : Bool) (s : State) : List Nat := (inputFields w sb s).map (stripStop sb)

/-- R306, checks 3 to 6 in their order: IN_LEN against NB, the field count against NV, every stop bit, every value. -/
def decodeError (w : Nat) (sb : Bool) (accept : Nat → Nat → Option CmdError) (s : State) : Option CmdError :=
  (checkCapacity 2 s.inLen.toNat s.params.nb).or
    ((checkCapacity 3 (fieldCount s.inLen.toNat w sb) s.params.nv).or
      (((inputFields w sb s).zipIdx.findSome? fun f => checkStop sb f.2 f.1).or
        ((inputValues w sb s).zipIdx.findSome? fun u => accept u.2 u.1)))

/-- A decode whose values go into the entries as they are, with `aux` 0 (R156, R194). -/
def decodeValues (w : Nat) (sb : Bool) (s : State) : State :=
  s.storeDecode w ((inputValues w sb s).map (BitVec.ofNat 64)) ((inputValues w sb s).map fun _ => 0) 0

/-! ## BENC -/

/-- R155, the check of entry `i`: first its width, then its value. -/
def checkEntry (s : State) (i : Nat) : Option CmdError :=
  if (s.widthAt i).toNat = 0 ∨ 64 < (s.widthAt i).toNat then some (errorAt .width i ((s.widthAt i).setWidth 64))
  else if 2 ^ (s.widthAt i).toNat ≤ (s.rawAt i).toNat then some (errorAt .value i (s.rawAt i))
  else none

/-- R155: the fields BENC encodes, entry by entry at its own width. -/
def entryFields (s : State) : List (Nat × Nat) :=
  (List.range s.count.toNat).map fun i => ((s.widthAt i).toNat, (s.rawAt i).toNat)

/-- R155: `L = ceil_div(T, 8)`. -/
def entryBytes (sb : Bool) (s : State) : Nat :=
  ceilDiv (totalBits ((List.range s.count.toNat).map fun i => (s.widthAt i).toNat) sb) 8

/-- R155. -/
def execBenc (sb : Bool) (s : State) : Host.Outcome State Fault Refusal :=
  command (encodeError (checkEntry s) (entryBytes sb s) s) (fun s => encodeFields (entryFields s) sb s) s

/-! ## BDEC -/

/-- R156, R306 check 2: W must be 1 to 64. -/
def checkWidth (w : Nat) : Option CmdError :=
  if w = 0 ∨ 64 < w then some (errorAt .width 0 (BitVec.ofNat 64 w)) else none

/-- R156. -/
def execBdec (sb : Bool) (w : Nat) (s : State) : Host.Outcome State Fault Refusal :=
  command ((checkWidth w).or (decodeError w sb (fun _ _ => none) s)) (decodeValues w sb) s

end Sys2Proof.Machine
end

