-- ==== Sys2Proof/Machine/ProtocolValue.lean ====
section
/-! DEFINITION. The protocol value commands ENC and DEC of Handshake, Version, TwelveBitNumber and ReceiveStatus
(41_protocol_values.md R193 to R202). -/

namespace Sys2Proof.Machine

/-- R193: `L = ceil_div(n * (wt + s), 8)`. -/
def typedBytes (ty : ProtoType) (sb : Bool) (s : State) : Nat := ceilDiv (s.count.toNat * (wireWidth ty + sb.toNat)) 8

/-- R193, R235: the checks of a typed encode. -/
def typedEncodeError (ty : ProtoType) (sb : Bool) (s : State) : Option CmdError :=
  encodeError (fun i => checkOperand ty i (s.rawAt i)) (typedBytes ty sb s) s

/-- R193: the fields of a typed encode; the width is the type's, `x[i].w` is not read. -/
def typedFields (ty : ProtoType) (s : State) : List (Nat × Nat) :=
  (s.raws s.count.toNat).map fun v => (wireWidth ty, wireValue ty v)

/-- R193: `TENC(t, s)`. -/
def typedEncode (ty : ProtoType) (sb : Bool) (s : State) : Host.Outcome State Fault Refusal :=
  command (typedEncodeError ty sb s) (fun s => encodeFields (typedFields ty s) sb s) s

/-- R194: `TDEC(t, s)`. -/
def typedDecode (ty : ProtoType) (sb : Bool) (s : State) : Host.Outcome State Fault Refusal :=
  command (decodeError (wireWidth ty) sb (checkDecoded ty) s) (decodeValues (wireWidth ty) sb) s

/-- R195. -/
def execEncHs (sb : Bool) (s : State) : Host.Outcome State Fault Refusal := typedEncode .handshake sb s

/-- R196. -/
def execDecHs (sb : Bool) (s : State) : Host.Outcome State Fault Refusal := typedDecode .handshake sb s

/-- R197. -/
def execEncVer (sb : Bool) (s : State) : Host.Outcome State Fault Refusal := typedEncode .version sb s

/-- R198. -/
def execDecVer (sb : Bool) (s : State) : Host.Outcome State Fault Refusal := typedDecode .version sb s

/-- R199. -/
def execEncNum (sb : Bool) (s : State) : Host.Outcome State Fault Refusal := typedEncode .twelveBitNumber sb s

/-- R200. -/
def execDecNum (sb : Bool) (s : State) : Host.Outcome State Fault Refusal := typedDecode .twelveBitNumber sb s

/-- R201. -/
def execEncRs (sb : Bool) (s : State) : Host.Outcome State Fault Refusal := typedEncode .receiveStatus sb s

/-- R202. -/
def execDecRs (sb : Bool) (s : State) : Host.Outcome State Fault Refusal := typedDecode .receiveStatus sb s

end Sys2Proof.Machine
end

