-- ==== Sys2Proof/Machine/Character.lean ====
section
/-! DEFINITION. Character strings and the stream checksum: ENC.CHR, DEC.CHR and CHKSUM (42_character.md R230 to R237). -/

namespace Sys2Proof.Machine

/-- R230: `magic`, of a string that is not empty; for the empty string it is never used (R231). -/
def magicOf (text : List Byte) : Byte :=
  text.headD 0 ^^^ text.getLastD 0 ^^^ BitVec.ofNat 8 text.length

/-- R230: the nibble of one character. -/
def nibbleOf (magic c : Byte) : BitVec 4 :=
  ((c + magic) >>> 4).setWidth 4 ^^^ (c + magic).setWidth 4

/-- R230, R231: `stream_checksum(t)`. -/
def streamChecksum (text : List Byte) : List (BitVec 4) := text.map (nibbleOf (magicOf text))

/-- R232: `embed(c, k)`, the bits `k1 k0`, then `c`, then `k3 k2`. -/
def embed (c : Byte) (k : BitVec 4) : BitVec 12 := k.extractLsb' 0 2 ++ c ++ k.extractLsb' 2 2

/-- R233: the character code of a 12-bit wire integer. -/
def extractCode (r : BitVec 12) : Byte := r.extractLsb' 2 8

/-- R233: its checksum nibble, `k3 = r[1]`, `k2 = r[0]`, `k1 = r[11]`, `k0 = r[10]`. -/
def extractNibble (r : BitVec 12) : BitVec 4 := r.extractLsb' 0 2 ++ r.extractLsb' 10 2

/-- The operands of ENC.CHR and CHKSUM as character codes; `checkOperand .character` has found each of them below 256. -/
def operandText (s : State) : List Byte := (s.raws s.count.toNat).map (·.setWidth 8)

/-- R235: the wire integers of a string, each with its nibble embedded. -/
def wireText (text : List Byte) : List (Nat × Nat) :=
  (List.zipWith embed text (streamChecksum text)).map fun r => (12, r.toNat)

/-- R235. -/
def execEncChr (sb : Bool) (s : State) : Host.Outcome State Fault Refusal :=
  command (typedEncodeError .character sb s)
    (fun s =>
      (encodeFields (wireText (operandText s)) sb s).storeAux
        ((streamChecksum (operandText s)).map (auxOf false)))
    s

/-- R236: the AUX field of a decoded character: the extracted nibble, and whether it differs from the recomputed one. -/
def verifiedAux (extracted computed : BitVec 4) : BitVec 5 := auxOf (extracted != computed) extracted

/-- R236: the entries, COUNT and MISCNT that a string of wire integers decodes to. -/
def storeText (wire : List (BitVec 12)) (s : State) : State :=
  let auxs := List.zipWith verifiedAux (wire.map extractNibble) (streamChecksum (wire.map extractCode))
  s.storeDecode 12 ((wire.map extractCode).map (·.setWidth 64)) auxs (auxs.countP auxM)

/-- R236. -/
def execDecChr (sb : Bool) (s : State) : Host.Outcome State Fault Refusal :=
  command (decodeError (wireWidth .character) sb (checkDecoded .character) s)
    (fun s => storeText ((inputValues (wireWidth .character) sb s).map (BitVec.ofNat 12)) s) s

/-- R237, R305: CHKSUM writes no bytes, so it checks COUNT and the operands only. -/
def chksumError (s : State) : Option CmdError :=
  (checkCapacity 0 s.count.toNat s.params.nv).or
    (firstError s.count.toNat fun i => checkOperand .character i (s.rawAt i))

/-- R237. -/
def execChksum (s : State) : Host.Outcome State Fault Refusal :=
  command (chksumError s)
    (fun s => { s.storeAux ((streamChecksum (operandText s)).map (auxOf false)) with misCnt := 0 }) s

end Sys2Proof.Machine
end

