-- ==== Sys2Proof/Machine/Control.lean ====
section
/-! DEFINITION. The control command CLR and the unassigned command words (43_control.md R270, R271). -/

namespace Sys2Proof.Machine

/-- R270: `MISCNT <- 0; STATUS.STICKY <- 0; done()`. -/
def execClr (s : State) : Host.Outcome State Fault Refusal :=
  command none (fun s => { s with misCnt := 0, status := clearSticky s.status }) s

/-- R271: an illegal word `c`, already in CMD, executes as `raise E_CMD(0, zext_64(c))`. -/
def illegalWord (c : Word) (s : State) : Host.Outcome State Fault Refusal :=
  command (some (errorAt .cmd 0 (c.setWidth 64))) (fun s => s) s

end Sys2Proof.Machine
end

