-- ==== Sys2Proof/Machine/Dispatch.lean ====
section
/-! DEFINITION. Which meaning each command has. -/

namespace Sys2Proof.Machine

-- The state already holds the command word in CMD (10_state.md R36).
def exec (i : Instr) (s : State) : Host.Outcome State Fault Refusal :=
  match i with
  | .benc sb => Sys2Proof.Machine.execBenc sb s
  | .bdec sb w => Sys2Proof.Machine.execBdec sb w s
  | .encHs sb => Sys2Proof.Machine.execEncHs sb s
  | .encVer sb => Sys2Proof.Machine.execEncVer sb s
  | .encNum sb => Sys2Proof.Machine.execEncNum sb s
  | .encChr sb => Sys2Proof.Machine.execEncChr sb s
  | .encRs sb => Sys2Proof.Machine.execEncRs sb s
  | .decHs sb => Sys2Proof.Machine.execDecHs sb s
  | .decVer sb => Sys2Proof.Machine.execDecVer sb s
  | .decNum sb => Sys2Proof.Machine.execDecNum sb s
  | .decChr sb => Sys2Proof.Machine.execDecChr sb s
  | .decRs sb => Sys2Proof.Machine.execDecRs sb s
  | .chksum => Sys2Proof.Machine.execChksum s
  | .clr => Sys2Proof.Machine.execClr s

end Sys2Proof.Machine
end

