-- ==== Sys2Proof/Machine/Step.lean ====
section
/-! DEFINITION. One step of the machine: the next host event (20_memory.md R91), with the command it runs, if it is a write to
CMD (10_state.md R36). -/

namespace Sys2Proof.Machine

/-- R36, R116, R117: the command a word stands for runs; an illegal word is the `E_CMD` error. -/
def runWord (c : Word) (s : State) : Host.Outcome State Fault Refusal :=
  match decode c with
  | .ok i => exec i s
  | .error _ => illegalWord c s

/-- One step. With no event to come the block is idle and nothing changes: it takes no step of its own (R30, R317). -/
def step (s : State) : Host.Outcome State Fault Refusal :=
  match s.host with
  | [] => .next s
  | e :: _ =>
    match hostEvent e s.afterEvent with
    | .complete t => .next t
    | .run c t => runWord c t
    | .refused f => .fault f

/-- The state in which the host's next event writes to CMD the instruction of `nbits` bits with the bits `w`, so that the next step
runs it (log 2). Nothing else changes. -/
def State.withFetchWord (s : State) (nbits w : Nat) : State :=
  { s with host := .writeWord (BitVec.ofNat 19 RegName.cmd.offset) (BitVec.ofNat 32 (w % 2 ^ nbits)) :: s.host }

end Sys2Proof.Machine
end

