-- ==== Sys2Proof/Safety.lean ====
section
/-! DEFINITION. The terms the claims use: the invariant of the machine's states, which inputs a command reads, the bits of the
byte buffers by position, and the spec's formulas for chunks, fields, codes and checksums written over positions and
numbers, apart from the functions the machine runs. -/

namespace Sys2Proof.Machine

/-! ## The invariant -/

/-- What holds in every state a run can reach: legal parameters (R6), canonical buffers (log 4), the result registers within
the capacities, and the fields of STATUS in the relations of R37, R301, R302 and R303. -/
structure State.Inv (s : State) : Prop where
  params : s.params.wf
  rawLo : Sparse.wf s.params.nv s.x.rawLo
  rawHi : Sparse.wf s.params.nv s.x.rawHi
  width : Sparse.wf s.params.nv s.x.width
  aux : Sparse.wf s.params.nv s.x.aux
  ibuf : Memory.wf s.params.nb s.ibuf
  obuf : Memory.wf s.params.nb s.obuf
  /-- R42: OUT_LEN is a number of OBUF's bytes. -/
  outLen : s.outLen.toNat ≤ s.params.nb
  /-- R43: MISCNT is a number of entries. -/
  misCnt : s.misCnt.toNat ≤ s.params.nv
  /-- R37, R50: the reserved bits and BUSY read 0. -/
  reserved : s.status &&& 0xFFFFFE04#32 = 0
  /-- R37: ECODE is 0 to 6. -/
  ecode : (statusEcode s.status).toNat ≤ 6
  /-- R302, R303: ERR is set exactly when ECODE names an error. -/
  err : statusErr s.status = true ↔ statusEcode s.status ≠ 0
  /-- R302: an error sets STICKY. -/
  sticky : statusErr s.status = true → statusSticky s.status = true
  /-- R37: before the first command STATUS is 0. -/
  fresh : statusDone s.status = false → s.status = 0 ∧ s.misCnt = 0
  /-- R37: CHKMIS is set exactly when the last command succeeded and left MISCNT != 0. -/
  chkmis : statusChkmis s.status = (statusDone s.status && !statusErr s.status && s.misCnt != 0)
  /-- R38, R39: after a success, and at reset, ERRIDX and ERRVAL are 0. -/
  noError : statusErr s.status = false → s.errIdx = 0 ∧ s.errVal = 0
  /-- R36, R303, R304: the word in CMD is illegal exactly when the last command ended in `E_CMD`, and ERRVAL holds it then. -/
  cmdError : statusDone s.status = true →
    (statusEcode s.status = 1 ↔ (decode s.cmd).toOption = none) ∧
    (statusEcode s.status = 1 → s.errIdx = 0 ∧ s.errVal = s.cmd.setWidth 64)

/-- No command has ended in an error since reset or the last CLR (R37, STICKY). -/
abbrev State.noErrorRecorded (s : State) : Prop := statusSticky s.status = false

/-! ## What a command reads -/

/-- R343: the host has written, since the reset, every cell the command reads. -/
def State.InputsWritten (s : State) : Instr → Prop
  | .benc _ => ∀ i < s.count.toNat,
      (s.x.rawLo.find i).isSome ∧ (s.x.rawHi.find i).isSome ∧ (s.x.width.find i).isSome
  | .encHs _ => ∀ i < s.count.toNat, (s.x.rawLo.find i).isSome ∧ (s.x.rawHi.find i).isSome
  | .encVer _ => ∀ i < s.count.toNat, (s.x.rawLo.find i).isSome ∧ (s.x.rawHi.find i).isSome
  | .encNum _ => ∀ i < s.count.toNat, (s.x.rawLo.find i).isSome ∧ (s.x.rawHi.find i).isSome
  | .encChr _ => ∀ i < s.count.toNat, (s.x.rawLo.find i).isSome ∧ (s.x.rawHi.find i).isSome
  | .encRs _ => ∀ i < s.count.toNat, (s.x.rawLo.find i).isSome ∧ (s.x.rawHi.find i).isSome
  | .chksum => ∀ i < s.count.toNat, (s.x.rawLo.find i).isSome ∧ (s.x.rawHi.find i).isSome
  | .bdec _ _ => ∀ j < s.inLen.toNat, (Sparse.find s.ibuf j).isSome
  | .decHs _ => ∀ j < s.inLen.toNat, (Sparse.find s.ibuf j).isSome
  | .decVer _ => ∀ j < s.inLen.toNat, (Sparse.find s.ibuf j).isSome
  | .decNum _ => ∀ j < s.inLen.toNat, (Sparse.find s.ibuf j).isSome
  | .decChr _ => ∀ j < s.inLen.toNat, (Sparse.find s.ibuf j).isSome
  | .decRs _ => ∀ j < s.inLen.toNat, (Sparse.find s.ibuf j).isSome
  | .clr => True

/-- R48: two states agree on every input of a command. -/
def State.SameInputs (s u : State) : Prop :=
  s.params = u.params ∧ s.count = u.count ∧ s.inLen = u.inLen ∧ s.x = u.x ∧ s.ibuf = u.ibuf ∧ s.drawNo = u.drawNo

/-! ## Bits by position -/

/-- R10: bit position `p` of a byte buffer is bit `7 - (p mod 8)` of byte `p // 8`. -/
def bitAt (byteAt : Nat → Byte) (p : Nat) : Bool := (byteAt (p / 8)).getLsbD (7 - p % 8)

/-- The bit position, within the sequence of R150, of the first bit of field `i`: the effective widths before it. -/
def bitOffset (w : Nat → Nat) (sb : Bool) (i : Nat) : Nat := ((List.range i).map fun k => w k + sb.toNat).sum

/-- R150, R151 over positions: the chunk of the `n` fields of widths `w i` and values `r i`. With `T` bits in all, `front` is half
the padding, the fields follow each other most significant bit first, each with its stop bit, and the rest is 0. -/
def ChunkBits (n : Nat) (w r : Nat → Nat) (sb : Bool) (bit : Nat → Bool) : Prop :=
  let T := bitOffset w sb n
  let front := (8 - T % 8) % 8 / 2
  (∀ p < front, bit p = false) ∧
  (∀ i < n, ∀ b < w i, bit (front + bitOffset w sb i + (w i - 1 - b)) = (r i).testBit b) ∧
  (sb = true → ∀ i < n, bit (front + bitOffset w sb i + w i) = true) ∧
  (∀ p, front + T ≤ p → p < 8 * ((T + 7) / 8) → bit p = false)

/-- R152: the number of fields of `L` bytes. -/
def decodeCount (L w : Nat) (sb : Bool) : Nat := 8 * L / (w + sb.toNat)

/-- R152: the first bit position of field `k` of the input of `s`. -/
def fieldStart (s : State) (w : Nat) (sb : Bool) (k : Nat) : Nat :=
  (8 * s.inLen.toNat - decodeCount s.inLen.toNat w sb * (w + sb.toNat)) / 2 + k * (w + sb.toNat)

/-- R152, R153: the payload of field `k`, the number whose bits are the field's first `w`, most significant first. -/
def payload (s : State) (w : Nat) (sb : Bool) (k : Nat) : Nat :=
  (List.range w).foldl (fun v j => 2 * v + (bitAt s.ibufAt (fieldStart s w sb k + j)).toNat) 0

/-- R153: the stop bit of field `k`, the bit after its payload. -/
def stopBit (s : State) (w k : Nat) : Bool := bitAt s.ibufAt (fieldStart s w true k + w)

/-! ## Codes and checksums as numbers -/

/-- R191. -/
abbrev IsHandshake (v : Nat) : Prop := v = 72 ∨ v = 13 ∨ v = 42 ∨ v = 39 ∨ v = 0

/-- R192. -/
abbrev IsReceiveStatus (v : Nat) : Prop := v = 0 ∨ v = 1 ∨ v = 2

/-- R230: `magic` of the string `t 0`, ..., `t (m - 1)`. -/
def magicNumber (m : Nat) (t : Nat → Nat) : Nat := (t 0 ^^^ t (m - 1)) ^^^ (m % 256)

/-- R230: `checksum[i]`. -/
def checksumNibble (m : Nat) (t : Nat → Nat) (i : Nat) : Nat :=
  let v := (t i + magicNumber m t) % 256
  (v / 16) ^^^ (v % 16)

/-- R232: `(k[1:0] << 10) | (c << 2) | k[3:2]`. -/
def embedNumber (c k : Nat) : Nat := (k % 4) * 1024 + c * 4 + k / 4

/-- R233: `c = r[9:2]`. -/
def codeNumber (r : Nat) : Nat := r / 4 % 256

/-- R233: `k = (r[1:0] << 2) | r[11:10]`. -/
def nibbleNumber (r : Nat) : Nat := (r % 4) * 4 + r / 1024 % 4

/-! ## Command words -/

/-- R117, R118: the word of each command, as the rule spells it. -/
def specWord : Instr → Word
  | .benc s => 0x00000001#32 ||| flagAt 4 s
  | .bdec s w => 0x00000002#32 ||| flagAt 4 s ||| (BitVec.ofNat 32 w <<< 16)
  | .encHs s => 0x00000003#32 ||| flagAt 4 s
  | .encVer s => 0x00000103#32 ||| flagAt 4 s
  | .encNum s => 0x00000203#32 ||| flagAt 4 s
  | .encChr s => 0x00000303#32 ||| flagAt 4 s
  | .encRs s => 0x00000403#32 ||| flagAt 4 s
  | .decHs s => 0x00000004#32 ||| flagAt 4 s
  | .decVer s => 0x00000104#32 ||| flagAt 4 s
  | .decNum s => 0x00000204#32 ||| flagAt 4 s
  | .decChr s => 0x00000304#32 ||| flagAt 4 s
  | .decRs s => 0x00000404#32 ||| flagAt 4 s
  | .chksum => 0x00000005#32
  | .clr => 0x00000006#32

/-- R116: the words that are illegal, by their fields OP (bits 3:0), S (4), T (10:8), W (23:16) and reserved bits. -/
abbrev IllegalFields (c : Word) : Prop :=
  (c.extractLsb' 0 4 = 0 ∨ 7 ≤ (c.extractLsb' 0 4).toNat) ∨
  (c.extractLsb' 5 3 ≠ 0 ∨ c.extractLsb' 11 5 ≠ 0 ∨ c.extractLsb' 24 8 ≠ 0) ∨
  ((c.extractLsb' 0 4 = 3 ∨ c.extractLsb' 0 4 = 4) ∧ 5 ≤ (c.extractLsb' 8 3).toNat) ∨
  ((c.extractLsb' 0 4 = 1 ∧ (c.extractLsb' 8 3 ≠ 0 ∨ c.extractLsb' 16 8 ≠ 0)) ∨
    (c.extractLsb' 0 4 = 2 ∧ c.extractLsb' 8 3 ≠ 0) ∨
    ((c.extractLsb' 0 4 = 3 ∨ c.extractLsb' 0 4 = 4) ∧ c.extractLsb' 16 8 ≠ 0) ∨
    ((c.extractLsb' 0 4 = 5 ∨ c.extractLsb' 0 4 = 6) ∧
      (c.extractLsb' 4 1 ≠ 0 ∨ c.extractLsb' 8 3 ≠ 0 ∨ c.extractLsb' 16 8 ≠ 0)))

/-- The encode commands (R42: "BENC and ENC.*"). -/
def isEncode : Instr → Bool
  | .benc _ => true
  | .encHs _ => true
  | .encVer _ => true
  | .encNum _ => true
  | .encChr _ => true
  | .encRs _ => true
  | .bdec _ _ => false
  | .decHs _ => false
  | .decVer _ => false
  | .decNum _ => false
  | .decChr _ => false
  | .decRs _ => false
  | .chksum => false
  | .clr => false

/-- The stop flag and the field width of a decode command (R156, R190); none for a command that is no decode. -/
def decodeShape : Instr → Option (Bool × Nat)
  | .bdec s w => some (s, w)
  | .decHs s => some (s, 21)
  | .decVer s => some (s, 10)
  | .decNum s => some (s, 12)
  | .decChr s => some (s, 12)
  | .decRs s => some (s, 9)
  | .benc _ => none
  | .encHs _ => none
  | .encVer _ => none
  | .encNum _ => none
  | .encChr _ => none
  | .encRs _ => none
  | .chksum => none
  | .clr => none

/-- R303, "raised by": the error codes a command can end in. -/
def raisable : Instr → List Nat
  | .benc _ => [2, 3, 6]
  | .bdec _ _ => [2, 5, 6]
  | .encHs _ => [4, 6]
  | .encVer _ => [3, 6]
  | .encNum _ => [6]
  | .encChr _ => [3, 6]
  | .encRs _ => [4, 6]
  | .decHs _ => [4, 5, 6]
  | .decVer _ => [5, 6]
  | .decNum _ => [5, 6]
  | .decChr _ => [5, 6]
  | .decRs _ => [4, 5, 6]
  | .chksum => [3, 6]
  | .clr => []

/-! ## How a command ended -/

/-- R302: the state after the error `code` about `idx` with `val`: STATUS `0x00000103 | code << 4`, ERRIDX and ERRVAL, and nothing
else changed. -/
def State.failed (s : State) (code idx : Nat) (val : BitVec 64) : State :=
  { s with status := 0x00000103#32 ||| BitVec.ofNat 32 (code * 16), errIdx := BitVec.ofNat 32 idx, errVal := val }

/-- R301: from `s` a command came to success in `t`: STATUS `0x00000001 | CHKMIS << 3 | STICKY << 8`, ERRIDX and ERRVAL 0. -/
def CompletedFrom (s t : State) : Prop :=
  t.status = 0x00000001#32 ||| (if t.misCnt = 0 then 0#32 else 0x8#32) ||| (s.status &&& 0x100#32) ∧
  t.errIdx = 0 ∧ t.errVal = 0

/-- What no command writes (R36, R41, R46): the parameters, CMD, IN_LEN, IBUF, and the model's own fields. -/
def Untouched (s t : State) : Prop :=
  t.params = s.params ∧ t.cmd = s.cmd ∧ t.inLen = s.inLen ∧ t.ibuf = s.ibuf ∧
  t.drawNo = s.drawNo ∧ t.host = s.host ∧ t.rdata = s.rdata

/-- The entries at or above `n` are as before (R44). -/
def SameEntriesFrom (n : Nat) (s t : State) : Prop :=
  ∀ k, n ≤ k → t.rawAt k = s.rawAt k ∧ t.widthAt k = s.widthAt k ∧ t.auxAt k = s.auxAt k

/-! ## What an encode and a decode do, in full -/

/-- An encode command's whole rule, for fields of widths `w k` and wire integers `r k`, where `bad k` is the error code and ERRVAL of
entry `k`, if it is refused: the errors in the order of R305, and the chunk of R150 and R151 on success, with what changes and
what does not. `entries t` says what happened to the value buffer. -/
def EncodeRule (i : Instr) (sb : Bool) (s : State) (w r : Nat → Nat) (bad : Nat → Option (Nat × BitVec 64))
    (entries : State → Prop) : Prop :=
  let n := s.count.toNat
  let L := (bitOffset w sb n + 7) / 8
  (s.params.nv < n → exec i s = .next (s.failed 6 0 (BitVec.ofNat 64 n))) ∧
  (n ≤ s.params.nv → ∀ k < n, ∀ c v, bad k = some (c, v) → (∀ j < k, bad j = none) →
    exec i s = .next (s.failed c k v)) ∧
  (n ≤ s.params.nv → (∀ k < n, bad k = none) → s.params.nb < L →
    exec i s = .next (s.failed 6 1 (BitVec.ofNat 64 L))) ∧
  (n ≤ s.params.nv → (∀ k < n, bad k = none) → L ≤ s.params.nb →
    ∃ t, exec i s = .next t ∧
      t.outLen = BitVec.ofNat 32 L ∧ ChunkBits n w r sb (bitAt t.obufAt) ∧ (∀ j, L ≤ j → t.obufAt j = s.obufAt j) ∧
      t.count = s.count ∧ t.misCnt = 0 ∧ entries t ∧ CompletedFrom s t ∧ Untouched s t)

/-- A decode command's whole rule at width `w`, where `accept` says which integers are codes: the errors in the order of R306 from
its third check on, and on success COUNT, STATUS and what does not change. `entries t` says what happened to the value buffer
and MISCNT. -/
def DecodeRule (i : Instr) (sb : Bool) (s : State) (w : Nat) (accept : Nat → Prop) (entries : State → Prop) : Prop :=
  let L := s.inLen.toNat
  let n := decodeCount L w sb
  (s.params.nb < L → exec i s = .next (s.failed 6 2 (BitVec.ofNat 64 L))) ∧
  (L ≤ s.params.nb → s.params.nv < n → exec i s = .next (s.failed 6 3 (BitVec.ofNat 64 n))) ∧
  (L ≤ s.params.nb → n ≤ s.params.nv → sb = true →
    ∀ k < n, stopBit s w k = false → (∀ j < k, stopBit s w j = true) →
      exec i s = .next (s.failed 5 k (BitVec.ofNat 64 (payload s w sb k)))) ∧
  (L ≤ s.params.nb → n ≤ s.params.nv → (sb = true → ∀ k < n, stopBit s w k = true) →
    ∀ k < n, ¬ accept (payload s w sb k) → (∀ j < k, accept (payload s w sb j)) →
      exec i s = .next (s.failed 4 k (BitVec.ofNat 64 (payload s w sb k)))) ∧
  (L ≤ s.params.nb → n ≤ s.params.nv → (sb = true → ∀ k < n, stopBit s w k = true) →
    (∀ k < n, accept (payload s w sb k)) →
    ∃ t, exec i s = .next t ∧
      t.count = BitVec.ofNat 32 n ∧ entries t ∧ t.outLen = s.outLen ∧ t.obuf = s.obuf ∧
      CompletedFrom s t ∧ Untouched s t)

/-- R156, R194: the entries a decode that keeps its integers writes. -/
def DecodedEntries (sb : Bool) (s : State) (w : Nat) (t : State) : Prop :=
  let n := decodeCount s.inLen.toNat w sb
  (∀ k < n, t.rawAt k = BitVec.ofNat 64 (payload s w sb k) ∧ t.widthAt k = BitVec.ofNat 8 w ∧ t.auxAt k = 0) ∧
  SameEntriesFrom n s t ∧ t.misCnt = 0

/-! ## Bus accesses -/

/-- R81, R84, R85: the block accepts a 32-bit access at address `n`. -/
abbrev WordAccepted (p : Params) (n : Nat) : Prop :=
  n % 4 = 0 ∧
  (n < 0x30 ∨ (0x10000 ≤ n ∧ n < 0x10000 + 16 * p.nv) ∨
    (0x40000 ≤ n ∧ n - 0x40000 + 3 < p.nb) ∨ (0x60000 ≤ n ∧ n - 0x60000 + 3 < p.nb))

/-- R81, R84: the block accepts an 8-bit access at address `n`. -/
abbrev ByteAccepted (p : Params) (n : Nat) : Prop :=
  (0x40000 ≤ n ∧ n < 0x40000 + p.nb) ∨ (0x60000 ≤ n ∧ n < 0x60000 + p.nb)

end Sys2Proof.Machine
end

