-- ==== Sys2Proof/Certificates/Slice0/Obligations.lean ====
section
/-! DEFINITION. The statements for the provers: what the numbered rules of spec/ say the block does. -/

open Sys2Proof Sys2Proof.Machine

/-! ## Command words -/

/-- R117, R118: the decoder undoes the encoder on every well-formed command. -/
def Obligations.DecodeOfEncodeIsTheCommand : Prop :=
  ∀ i : Instr, i.wf = true → decode (encode i) = .ok i

/-- R117: a word is legal exactly when it is one of the words the rule lists, and then it decodes to that command. -/
def Obligations.LegalWordsAreTheListedOnes : Prop :=
  ∀ (c : Word) (i : Instr), decode c = .ok i ↔ i.wf = true ∧ c = specWord i

/-- R116: the illegal words are those of the rule's list; each executes as `E_CMD`; BDEC with W = 0 or W > 64 is legal and
fails with `E_WIDTH`. -/
def Obligations.IllegalWordsAreTheListedOnes : Prop :=
  (∀ c : Word, (decode c).toOption = none ↔ IllegalFields c) ∧
  (∀ (c : Word) (s : State), IllegalFields c → runWord c s = .next (s.failed 1 0 (c.setWidth 64))) ∧
  (∀ (sb : Bool) (w : Nat) (s : State), w < 256 → w = 0 ∨ 64 < w →
    runWord (specWord (.bdec sb w)) s = .next (s.failed 2 0 (BitVec.ofNat 64 w)))

/-- R118: the rule's three examples and the two words without operands decode to their commands. -/
def Obligations.ExampleWordsDecode : Prop :=
  decode 0x00000013#32 = .ok (.encHs true) ∧ decode 0x00150012#32 = .ok (.bdec true 21) ∧
  decode 0x00000314#32 = .ok (.decChr true) ∧ decode 0x00000005#32 = .ok .chksum ∧ decode 0x00000006#32 = .ok .clr

/-! ## Steps -/

/-- R36: a write to CMD stores the word and runs the command it stands for, or `E_CMD`; a read returns the last word written; reset
leaves CMD 0. -/
def Obligations.CmdWriteStoresAndExecutes : Prop :=
  (∀ (s : State) (c : Word) (rest : List HostEvent), s.host = .writeWord 0x0000C#19 c :: rest →
    (∀ i, decode c = .ok i → step s = exec i { s with host := rest, rdata := none, cmd := c }) ∧
    ((decode c).toOption = none →
      step s = .next ({ s with host := rest, rdata := none, cmd := c }.failed 1 0 (c.setWidth 64))) ∧
    ∃ t, step s = .next t ∧ t.cmd = c) ∧
  (∀ (s : State) (rest : List HostEvent), s.host = .readWord 0x0000C#19 :: rest →
    step s = .next { s with host := rest, rdata := some (.word s.cmd) }) ∧
  State.reset.cmd = 0

/-- The form in which the model loads an instruction (log 2): the next step runs the word. -/
def Obligations.FetchedWordRuns : Prop :=
  ∀ (s : State) (w : Nat), w < 2 ^ 32 →
    step (s.withFetchWord 32 w) =
      runWord (BitVec.ofNat 32 w) { s with rdata := none, cmd := BitVec.ofNat 32 w } ∧
    decodeTableWord 32 w = (decode (BitVec.ofNat 32 w)).toOption

/-- R271: an illegal word raises `E_CMD(0, c)`; nothing but STATUS, ERRIDX and ERRVAL changes, CMD already holding the word. -/
def Obligations.IllegalWordRaisesECmd : Prop :=
  ∀ (s : State) (c : Word), (decode c).toOption = none → runWord c s = .next (s.failed 1 0 (c.setWidth 64))

/-- R30: with no host event to come the block takes no step of its own. -/
def Obligations.IdleBlockKeepsItsState : Prop :=
  ∀ s : State, s.host = [] → step s = .next s

/-- R91, R34, R35: a step takes exactly the first event off the list; no event changes the parameters. -/
def Obligations.StepTakesTheFirstEvent : Prop :=
  ∀ s t : State, step s = .next t → t.host = s.host.tail ∧ t.params = s.params

/-! ## Bus accesses -/

/-- R84, R85: which accesses are accepted; every other one is refused. -/
def Obligations.AccessesAreRefusedOutsideTheMap : Prop :=
  ∀ (s : State) (a : Addr) (rest : List HostEvent), s.params.wf →
    (s.host = .readWord a :: rest → ((∃ f, step s = .fault f) ↔ ¬ WordAccepted s.params a.toNat)) ∧
    (∀ w, s.host = .writeWord a w :: rest → ((∃ f, step s = .fault f) ↔ ¬ WordAccepted s.params a.toNat)) ∧
    (s.host = .readByte a :: rest → ((∃ f, step s = .fault f) ↔ ¬ ByteAccepted s.params a.toNat)) ∧
    (∀ b, s.host = .writeByte a b :: rest → ((∃ f, step s = .fault f) ↔ ¬ ByteAccepted s.params a.toNat))

/-- The step on a host's 32-bit read answers `v` and changes nothing else. -/
abbrev WordReadGives (s : State) (a : Addr) (v : Word) : Prop :=
  ∀ rest, s.host = .readWord a :: rest → step s = .next { s with host := rest, rdata := some (.word v) }

/-- 10_state.md section 2: what a read at each register's offset returns. -/
def Obligations.RegisterReadsFollowTheMap : Prop :=
  ∀ s : State,
    WordReadGives s 0x00000#19 0x42534350#32 ∧
    WordReadGives s 0x00004#19 (BitVec.ofNat 32 s.params.nv) ∧
    WordReadGives s 0x00008#19 (BitVec.ofNat 32 s.params.nb) ∧
    WordReadGives s 0x0000C#19 s.cmd ∧
    WordReadGives s 0x00010#19 s.status ∧
    WordReadGives s 0x00014#19 s.errIdx ∧
    WordReadGives s 0x00018#19 (BitVec.ofNat 32 s.errVal.toNat) ∧
    WordReadGives s 0x0001C#19 (BitVec.ofNat 32 (s.errVal.toNat / 2 ^ 32)) ∧
    WordReadGives s 0x00020#19 s.count ∧
    WordReadGives s 0x00024#19 s.inLen ∧
    WordReadGives s 0x00028#19 s.outLen ∧
    WordReadGives s 0x0002C#19 s.misCnt

/-- R50: writes to read-only registers are accepted and ignored; the reserved bits of STATUS read 0 in every state of the invariant;
those of the WIDTH and AUX words read 0 whatever is written; every bit of CMD, COUNT and IN_LEN is written. -/
def Obligations.ReadOnlyAndReservedBits : Prop :=
  (∀ (s : State) (a : Addr) (w : Word) (rest : List HostEvent),
    a ∈ [0x00000#19, 0x00004#19, 0x00008#19, 0x00010#19, 0x00014#19, 0x00018#19, 0x0001C#19, 0x00028#19, 0x0002C#19] →
    s.host = .writeWord a w :: rest → step s = .next { s with host := rest, rdata := none }) ∧
  (∀ s : State, s.Inv → s.status &&& 0xFFFFFE00#32 = 0) ∧
  (∀ (s : State) (i : Nat) (w : Word) (rest : List HostEvent), s.params.wf → i < s.params.nv →
    (s.host = .writeWord (BitVec.ofNat 19 (0x10000 + 16 * i + 8)) w ::
        .readWord (BitVec.ofNat 19 (0x10000 + 16 * i + 8)) :: rest →
      ∃ t, step s = .next t ∧ ∃ u, step t = .next u ∧ u.rdata = some (.word (w &&& 0xFF#32))) ∧
    (s.host = .writeWord (BitVec.ofNat 19 (0x10000 + 16 * i + 12)) w ::
        .readWord (BitVec.ofNat 19 (0x10000 + 16 * i + 12)) :: rest →
      ∃ t, step s = .next t ∧ ∃ u, step t = .next u ∧ u.rdata = some (.word (w &&& 0x1F#32)))) ∧
  (∀ (s : State) (w : Word) (rest : List HostEvent),
    (s.host = .writeWord 0x00020#19 w :: rest → step s = .next { s with host := rest, rdata := none, count := w }) ∧
    (s.host = .writeWord 0x00024#19 w :: rest → step s = .next { s with host := rest, rdata := none, inLen := w }) ∧
    (s.host = .writeWord 0x0000C#19 w :: rest → ∃ t, step s = .next t ∧ t.cmd = w))

/-- R82: entry `i` is at `0x10000 + 16 * i`: the reads of its four words, and what a write to each changes; a write to one half of
`raw` leaves the other half. -/
def Obligations.EntryWordsReadAndWrite : Prop :=
  ∀ (s : State) (i : Nat), s.params.wf → i < s.params.nv →
    WordReadGives s (BitVec.ofNat 19 (0x10000 + 16 * i)) ((s.rawAt i).setWidth 32) ∧
    WordReadGives s (BitVec.ofNat 19 (0x10000 + 16 * i + 4)) (BitVec.ofNat 32 ((s.rawAt i).toNat / 2 ^ 32)) ∧
    WordReadGives s (BitVec.ofNat 19 (0x10000 + 16 * i + 8)) ((s.widthAt i).setWidth 32) ∧
    WordReadGives s (BitVec.ofNat 19 (0x10000 + 16 * i + 12)) ((s.auxAt i).setWidth 32) ∧
    ∀ (w : Word) (rest : List HostEvent) (k : Nat), k < 4 →
      s.host = .writeWord (BitVec.ofNat 19 (0x10000 + 16 * i + 4 * k)) w :: rest →
      ∃ t, step s = .next t ∧
        t = { s with host := rest, rdata := none, x := t.x } ∧
        (∀ j, j ≠ i → t.rawAt j = s.rawAt j ∧ t.widthAt j = s.widthAt j ∧ t.auxAt j = s.auxAt j) ∧
        t.rawAt i =
          (if k = 0 then (s.rawAt i).extractLsb' 32 32 ++ w
           else if k = 1 then w ++ (s.rawAt i).extractLsb' 0 32 else s.rawAt i) ∧
        t.widthAt i = (if k = 2 then w.setWidth 8 else s.widthAt i) ∧
        t.auxAt i = (if k = 3 then w.setWidth 5 else s.auxAt i)

/-- R83: `IBUF[j]` is at `0x40000 + j`, read and written; `OBUF[j]` is at `0x60000 + j`, read, its writes accepted and ignored. -/
def Obligations.ByteBufferBytesReadAndWrite : Prop :=
  ∀ (s : State) (j : Nat) (b : Byte) (rest : List HostEvent), s.params.wf → j < s.params.nb →
    (s.host = .readByte (BitVec.ofNat 19 (0x40000 + j)) :: rest →
      step s = .next { s with host := rest, rdata := some (.byte (s.ibufAt j)) }) ∧
    (s.host = .readByte (BitVec.ofNat 19 (0x60000 + j)) :: rest →
      step s = .next { s with host := rest, rdata := some (.byte (s.obufAt j)) }) ∧
    (s.host = .writeByte (BitVec.ofNat 19 (0x60000 + j)) b :: rest →
      step s = .next { s with host := rest, rdata := none }) ∧
    (s.host = .writeByte (BitVec.ofNat 19 (0x40000 + j)) b :: rest →
      ∃ t, step s = .next t ∧ t = { s with host := rest, rdata := none, ibuf := t.ibuf } ∧
        ∀ k, t.ibufAt k = if k = j then b else s.ibufAt k)

/-- R87: a 32-bit access to a byte buffer reads or writes four bytes, byte `j` in bits [7:0]. -/
def Obligations.ByteBufferWordsAreLittleEndian : Prop :=
  ∀ (s : State) (j : Nat) (w : Word) (rest : List HostEvent), s.params.wf → j % 4 = 0 → j + 3 < s.params.nb →
    WordReadGives s (BitVec.ofNat 19 (0x40000 + j))
      (BitVec.ofNat 32 ((s.ibufAt j).toNat + (s.ibufAt (j + 1)).toNat * 2 ^ 8 + (s.ibufAt (j + 2)).toNat * 2 ^ 16 +
        (s.ibufAt (j + 3)).toNat * 2 ^ 24)) ∧
    WordReadGives s (BitVec.ofNat 19 (0x60000 + j))
      (BitVec.ofNat 32 ((s.obufAt j).toNat + (s.obufAt (j + 1)).toNat * 2 ^ 8 + (s.obufAt (j + 2)).toNat * 2 ^ 16 +
        (s.obufAt (j + 3)).toNat * 2 ^ 24)) ∧
    (s.host = .writeWord (BitVec.ofNat 19 (0x60000 + j)) w :: rest →
      step s = .next { s with host := rest, rdata := none }) ∧
    (s.host = .writeWord (BitVec.ofNat 19 (0x40000 + j)) w :: rest →
      ∃ t, step s = .next t ∧ t = { s with host := rest, rdata := none, ibuf := t.ibuf } ∧
        ∀ k, t.ibufAt k =
          if k = j then BitVec.ofNat 8 w.toNat
          else if k = j + 1 then BitVec.ofNat 8 (w.toNat / 2 ^ 8)
          else if k = j + 2 then BitVec.ofNat 8 (w.toNat / 2 ^ 16)
          else if k = j + 3 then BitVec.ofNat 8 (w.toNat / 2 ^ 24)
          else s.ibufAt k)

/-- R90: a read changes nothing of the block: it only returns data. -/
def Obligations.ReadsHaveNoSideEffects : Prop :=
  ∀ (s t : State) (a : Addr) (rest : List HostEvent),
    s.host = .readWord a :: rest ∨ s.host = .readByte a :: rest → step s = .next t →
    ∃ d, t = { s with host := rest, rdata := some d }

/-! ## Reset and the invariant -/

/-- R340: a reset sets every register to its reset value, whatever it held; ID, CAP_NV and CAP_NB keep their constants, and no command
runs: STATUS.DONE is 0 with the rest of STATUS. -/
def Obligations.ResetSetsTheRegisters : Prop :=
  ∀ (s : State) (rest : List HostEvent), s.host = .reset :: rest →
    ∃ t, step s = .next t ∧ t.cmd = 0 ∧ t.status = 0 ∧ t.errIdx = 0 ∧ t.errVal = 0 ∧ t.count = 0 ∧ t.inLen = 0 ∧
      t.outLen = 0 ∧ t.misCnt = 0 ∧ readReg t .id = 0x42534350#32 ∧
      readReg t .capNv = BitVec.ofNat 32 s.params.nv ∧ readReg t .capNb = BitVec.ofNat 32 s.params.nb

/-- R341, in the model's form (log 3, log 6): a reset draws every cell of the three buffers anew, with the next number of draws, in the
same configuration, and the host's remaining events stay. -/
def Obligations.ResetRedrawsTheBuffers : Prop :=
  ∀ (s : State) (rest : List HostEvent), s.host = .reset :: rest →
    ∃ t, step s = .next t ∧ t.params = s.params ∧ t.host = rest ∧ t.drawNo = s.drawNo + 1 ∧
      ∀ k, t.rawAt k = Config.drawRaw t.drawNo k ∧ t.widthAt k = Config.drawWidth t.drawNo k ∧
        t.auxAt k = Config.drawAux t.drawNo k ∧ t.ibufAt k = Config.drawIbuf t.drawNo k ∧
        t.obufAt k = Config.drawObuf t.drawNo k

/-- R340: the reset values of the registers, in any configuration. The two parameters of `State.reset` are the model's choice (log 1)
and are not stated. -/
def Obligations.ResetStateHoldsTheResetValues : Prop :=
  ∀ (p : Params) (k : Nat),
    let s := State.resetWith p k
    s.cmd = 0 ∧ s.status = 0 ∧ s.errIdx = 0 ∧ s.errVal = 0 ∧ s.count = 0 ∧ s.inLen = 0 ∧ s.outLen = 0 ∧ s.misCnt = 0 ∧
    readReg s .id = 0x42534350#32 ∧ readReg s .capNv = BitVec.ofNat 32 p.nv ∧ readReg s .capNb = BitVec.ofNat 32 p.nb

/-- The invariant holds right after reset, in every legal configuration. -/
def Obligations.ResetMeetsTheInvariant : Prop :=
  State.reset.Inv ∧ ∀ (p : Params) (k : Nat), p.wf → (State.resetWith p k).Inv

/-- Every step keeps the invariant: canonical buffers, legal parameters, the relations of R37 and R301 to R304 between the fields of
STATUS, CMD, MISCNT, ERRIDX and ERRVAL. -/
def Obligations.StepKeepsTheInvariant : Prop :=
  ∀ s t : State, s.Inv → step s = .next t → t.Inv

/-! ## How commands end -/

/-- R300: every command ends, in success or in exactly one error, and the block goes on. -/
def Obligations.EveryCommandEndsInANextState : Prop :=
  ∀ (i : Instr) (s : State), ∃ t, exec i s = .next t ∧ statusDone t.status = true ∧
    (statusErr t.status = false ∧ t.errIdx = 0 ∧ t.errVal = 0 ∨
      ∃ code ∈ raisable i, ∃ idx val, t = s.failed code idx val)

/-- R302: an error writes STATUS, ERRIDX and ERRVAL and nothing else, and STATUS then reads `0x00000103 | code << 4`. -/
def Obligations.ErrorsAreAtomic : Prop :=
  ∀ (c : Word) (s t : State), runWord c s = .next t → statusErr t.status = true →
    t = { s with status := t.status, errIdx := t.errIdx, errVal := t.errVal } ∧
    statusSticky t.status = true ∧
    ∃ code, 1 ≤ code ∧ code ≤ 6 ∧ t.status = 0x00000103#32 ||| BitVec.ofNat 32 (code * 16)

/-- R301: after a success STATUS reads `0x00000001 | CHKMIS << 3 | STICKY << 8`, with CHKMIS from MISCNT and STICKY unchanged (for every
command but CLR, which clears it, R270), and ERRIDX and ERRVAL are 0. -/
def Obligations.SuccessStatusWord : Prop :=
  ∀ (i : Instr) (s t : State), exec i s = .next t → statusErr t.status = false →
    t.errIdx = 0 ∧ t.errVal = 0 ∧
    t.status =
      0x00000001#32 ||| (if t.misCnt = 0 then 0#32 else 0x8#32) |||
        (if i = .clr then 0#32 else s.status &&& 0x100#32)

/-- R303, "raised by": a command ends only in the errors the table gives it, and never in `E_CMD`. -/
def Obligations.CommandsRaiseOnlyTheirErrors : Prop :=
  ∀ (i : Instr) (s t : State), exec i s = .next t → statusErr t.status = true →
    (statusEcode t.status).toNat ∈ raisable i

/-- R312, R270: STICKY, once set, stays set on every step but a reset and a CLR written to CMD. -/
def Obligations.StickyIsClearedOnlyByClrAndReset : Prop :=
  ∀ s t : State, step s = .next t → ¬ s.noErrorRecorded → t.noErrorRecorded →
    ∃ rest, s.host = .reset :: rest ∨ s.host = .writeWord 0x0000C#19 0x00000006#32 :: rest

/-- R43: only DEC.CHR writes a MISCNT that is not 0; every other successful command writes 0; an error leaves it. -/
def Obligations.MiscntIsWrittenByDecChrAlone : Prop :=
  ∀ (i : Instr) (s t : State), exec i s = .next t →
    (statusErr t.status = true → t.misCnt = s.misCnt) ∧
    (statusErr t.status = false → (∀ sb, i ≠ .decChr sb) → t.misCnt = 0)

/-- R42: OUT_LEN is written only by successful encode commands. -/
def Obligations.OutLenIsWrittenByEncodesAlone : Prop :=
  ∀ (i : Instr) (s t : State), exec i s = .next t →
    isEncode i = false ∨ statusErr t.status = true → t.outLen = s.outLen ∧ t.obuf = s.obuf

/-- R46, R41: no command writes IBUF or IN_LEN, nor CMD, the parameters or the host's side. -/
def Obligations.CommandsLeaveTheirInputsRegisters : Prop :=
  ∀ (i : Instr) (s t : State), exec i s = .next t → Untouched s t

/-! ## The commands -/

/-- R155: BENC. -/
def Obligations.BencSerializesTheEntries : Prop :=
  (∀ sb : Bool, decode (0x00000001#32 ||| flagAt 4 sb) = .ok (.benc sb)) ∧
  ∀ (sb : Bool) (s : State),
    EncodeRule (.benc sb) sb s (fun k => (s.widthAt k).toNat) (fun k => (s.rawAt k).toNat)
      (fun k =>
        if (s.widthAt k).toNat = 0 ∨ 64 < (s.widthAt k).toNat then some (2, (s.widthAt k).setWidth 64)
        else if 2 ^ (s.widthAt k).toNat ≤ (s.rawAt k).toNat then some (3, s.rawAt k)
        else none)
      (fun t => t.x = s.x)

/-- R156: BDEC. -/
def Obligations.BdecExtractsTheFields : Prop :=
  ∀ (sb : Bool) (w : Nat) (s : State),
    (w < 256 → decode (0x00000002#32 ||| flagAt 4 sb ||| (BitVec.ofNat 32 w <<< 16)) = .ok (.bdec sb w)) ∧
    (w = 0 ∨ 64 < w → exec (.bdec sb w) s = .next (s.failed 2 0 (BitVec.ofNat 64 w))) ∧
    (1 ≤ w ∧ w ≤ 64 → DecodeRule (.bdec sb w) sb s w (fun _ => True) (DecodedEntries sb s w))

/-- R195: ENC.HS. -/
def Obligations.EncHsEncodesHandshakeCodes : Prop :=
  (∀ sb : Bool, decode (0x00000003#32 ||| flagAt 4 sb) = .ok (.encHs sb)) ∧
  ∀ (sb : Bool) (s : State),
    EncodeRule (.encHs sb) sb s (fun _ => 21) (fun k => (s.rawAt k).toNat)
      (fun k => if IsHandshake (s.rawAt k).toNat then none else some (4, s.rawAt k)) (fun t => t.x = s.x)

/-- R196: DEC.HS. -/
def Obligations.DecHsDecodesHandshakeCodes : Prop :=
  (∀ sb : Bool, decode (0x00000004#32 ||| flagAt 4 sb) = .ok (.decHs sb)) ∧
  ∀ (sb : Bool) (s : State), DecodeRule (.decHs sb) sb s 21 IsHandshake (DecodedEntries sb s 21)

/-- R197: ENC.VER. -/
def Obligations.EncVerEncodesVersions : Prop :=
  (∀ sb : Bool, decode (0x00000103#32 ||| flagAt 4 sb) = .ok (.encVer sb)) ∧
  ∀ (sb : Bool) (s : State),
    EncodeRule (.encVer sb) sb s (fun _ => 10) (fun k => (s.rawAt k).toNat)
      (fun k => if (s.rawAt k).toNat < 1024 then none else some (3, s.rawAt k)) (fun t => t.x = s.x)

/-- R198: DEC.VER. -/
def Obligations.DecVerDecodesVersions : Prop :=
  (∀ sb : Bool, decode (0x00000104#32 ||| flagAt 4 sb) = .ok (.decVer sb)) ∧
  ∀ (sb : Bool) (s : State), DecodeRule (.decVer sb) sb s 10 (fun _ => True) (DecodedEntries sb s 10)

/-- R199: ENC.NUM. -/
def Obligations.EncNumReducesModulo4096 : Prop :=
  (∀ sb : Bool, decode (0x00000203#32 ||| flagAt 4 sb) = .ok (.encNum sb)) ∧
  ∀ (sb : Bool) (s : State),
    EncodeRule (.encNum sb) sb s (fun _ => 12) (fun k => (s.rawAt k).toNat % 4096) (fun _ => none) (fun t => t.x = s.x)

/-- R200: DEC.NUM. -/
def Obligations.DecNumDecodesNumbers : Prop :=
  (∀ sb : Bool, decode (0x00000204#32 ||| flagAt 4 sb) = .ok (.decNum sb)) ∧
  ∀ (sb : Bool) (s : State), DecodeRule (.decNum sb) sb s 12 (fun _ => True) (DecodedEntries sb s 12)

/-- R201: ENC.RS. -/
def Obligations.EncRsEncodesStatusCodes : Prop :=
  (∀ sb : Bool, decode (0x00000403#32 ||| flagAt 4 sb) = .ok (.encRs sb)) ∧
  ∀ (sb : Bool) (s : State),
    EncodeRule (.encRs sb) sb s (fun _ => 9) (fun k => (s.rawAt k).toNat)
      (fun k => if IsReceiveStatus (s.rawAt k).toNat then none else some (4, s.rawAt k)) (fun t => t.x = s.x)

/-- R202: DEC.RS. -/
def Obligations.DecRsDecodesStatusCodes : Prop :=
  (∀ sb : Bool, decode (0x00000404#32 ||| flagAt 4 sb) = .ok (.decRs sb)) ∧
  ∀ (sb : Bool) (s : State), DecodeRule (.decRs sb) sb s 9 IsReceiveStatus (DecodedEntries sb s 9)

/-- R235: ENC.CHR: each character with its checksum nibble embedded; AUX of the entries encoded becomes the nibble, M = 0. -/
def Obligations.EncChrEmbedsTheChecksum : Prop :=
  (∀ sb : Bool, decode (0x00000303#32 ||| flagAt 4 sb) = .ok (.encChr sb)) ∧
  ∀ (sb : Bool) (s : State),
    let n := s.count.toNat
    let nibble := checksumNibble n fun k => (s.rawAt k).toNat
    EncodeRule (.encChr sb) sb s (fun _ => 12) (fun k => embedNumber (s.rawAt k).toNat (nibble k))
      (fun k => if (s.rawAt k).toNat < 256 then none else some (3, s.rawAt k))
      (fun t => (∀ k, t.rawAt k = s.rawAt k ∧ t.widthAt k = s.widthAt k) ∧
        ∀ k, t.auxAt k = if k < n then BitVec.ofNat 5 (nibble k) else s.auxAt k)

/-- R236: DEC.CHR: the characters, the extracted nibbles, M where a nibble differs from the recomputed one, and their number. -/
def Obligations.DecChrExtractsAndVerifies : Prop :=
  (∀ sb : Bool, decode (0x00000304#32 ||| flagAt 4 sb) = .ok (.decChr sb)) ∧
  ∀ (sb : Bool) (s : State),
    let n := decodeCount s.inLen.toNat 12 sb
    let code := fun k => codeNumber (payload s 12 sb k)
    let found := fun k => nibbleNumber (payload s 12 sb k)
    let differs := fun k => found k != checksumNibble n code k
    DecodeRule (.decChr sb) sb s 12 (fun _ => True)
      (fun t =>
        (∀ k < n, t.rawAt k = BitVec.ofNat 64 (code k) ∧ t.widthAt k = 12 ∧
          t.auxAt k = BitVec.ofNat 5 (found k + (differs k).toNat * 16)) ∧
        SameEntriesFrom n s t ∧ t.misCnt = BitVec.ofNat 32 ((List.range n).countP differs))

/-- R237: CHKSUM: the nibbles into AUX, no bytes; its two errors in their order. -/
def Obligations.ChksumWritesTheNibbles : Prop :=
  decode 0x00000005#32 = .ok .chksum ∧
  ∀ s : State,
    let n := s.count.toNat
    let nibble := checksumNibble n fun k => (s.rawAt k).toNat
    (s.params.nv < n → exec .chksum s = .next (s.failed 6 0 (BitVec.ofNat 64 n))) ∧
    (n ≤ s.params.nv → ∀ k < n, 256 ≤ (s.rawAt k).toNat → (∀ j < k, (s.rawAt j).toNat < 256) →
      exec .chksum s = .next (s.failed 3 k (s.rawAt k))) ∧
    (n ≤ s.params.nv → (∀ k < n, (s.rawAt k).toNat < 256) →
      ∃ t, exec .chksum s = .next t ∧
        (∀ k, t.rawAt k = s.rawAt k ∧ t.widthAt k = s.widthAt k) ∧
        (∀ k, t.auxAt k = if k < n then BitVec.ofNat 5 (nibble k) else s.auxAt k) ∧
        t.misCnt = 0 ∧ t.count = s.count ∧ t.outLen = s.outLen ∧ t.obuf = s.obuf ∧ CompletedFrom s t ∧ Untouched s t)

/-- R270: CLR cannot fail; it leaves STATUS 1, MISCNT, ERRIDX and ERRVAL 0, and everything else as it was. -/
def Obligations.ClrClearsTheStatus : Prop :=
  decode 0x00000006#32 = .ok .clr ∧
  ∀ s : State, exec .clr s = .next { s with misCnt := 0, status := 0x00000001#32, errIdx := 0, errVal := 0 }

/-! ## The codec as a whole -/

/-- `u` is a state of a block of the same parameters into whose IBUF the host has copied the chunk in the OBUF of `t`. -/
abbrev ChunkCopied (t u : State) : Prop :=
  u.params = t.params ∧ u.inLen = t.outLen ∧ ∀ j < t.outLen.toNat, u.ibufAt j = t.obufAt j

/-- R158: BDEC of the exact bytes BENC produced for entries of one width returns exactly the entries if and only if the padding is
shorter than a field, as it is for effective widths of 8 and more; in general it finds `n + pad // e` fields. -/
def Obligations.RoundTripExactlyWhenPaddingIsShort : Prop :=
  ∀ (sb : Bool) (w : Nat) (s t u : State), s.params.wf → 1 ≤ w → w ≤ 64 →
    (∀ k < s.count.toNat, (s.widthAt k).toNat = w) →
    exec (.benc sb) s = .next t → statusErr t.status = false → ChunkCopied t u →
    let T := s.count.toNat * (w + sb.toNat)
    let pad := 8 * ((T + 7) / 8) - T
    decodeCount u.inLen.toNat w sb = s.count.toNat + pad / (w + sb.toNat) ∧
    (8 ≤ w + sb.toNat → pad < w + sb.toNat) ∧
    ((∃ v, exec (.bdec sb w) u = .next v ∧ statusErr v.status = false ∧ v.count = s.count ∧
        ∀ k < s.count.toNat, v.rawAt k = s.rawAt k) ↔ pad < w + sb.toNat)

/-- R158, for the four protocol value types that are not strings: a type's decode of its encode's chunk returns the values (for
TwelveBitNumber their residues modulo 4096). -/
def Obligations.TypedValuesRoundTrip : Prop :=
  ∀ (enc dec : Instr) (sb : Bool) (s t u : State), s.params.wf →
    (enc, dec) ∈ [(.encHs sb, .decHs sb), (.encVer sb, .decVer sb), (.encNum sb, .decNum sb), (.encRs sb, .decRs sb)] →
    exec enc s = .next t → statusErr t.status = false → ChunkCopied t u →
    ∃ v, exec dec u = .next v ∧ statusErr v.status = false ∧ v.count = s.count ∧
      ∀ k < s.count.toNat, v.rawAt k = if enc = .encNum sb then BitVec.ofNat 64 ((s.rawAt k).toNat % 4096) else s.rawAt k

/-- R238: DEC.CHR of the exact bytes ENC.CHR produced returns the same characters with MISCNT = 0. -/
def Obligations.CharacterStringsVerifyThemselves : Prop :=
  ∀ (sb : Bool) (s t u : State), s.params.wf →
    exec (.encChr sb) s = .next t → statusErr t.status = false → ChunkCopied t u →
    ∃ v, exec (.decChr sb) u = .next v ∧ statusErr v.status = false ∧ v.count = s.count ∧ v.misCnt = 0 ∧
      ∀ k < s.count.toNat, v.rawAt k = s.rawAt k ∧ v.auxAt k = t.auxAt k

/-- R154: the skipped front bits and the trailing bits of a decode's input never change its outcome. -/
def Obligations.PaddingBitsAreNotValidated : Prop :=
  ∀ (i : Instr) (sb : Bool) (w : Nat) (s t : State) (m : Memory), decodeShape i = some (sb, w) →
    (∀ p, fieldStart s w sb 0 ≤ p → p < fieldStart s w sb (decodeCount s.inLen.toNat w sb) →
      bitAt { s with ibuf := m }.ibufAt p = bitAt s.ibufAt p) →
    exec i s = .next t → exec i { s with ibuf := m } = .next { t with ibuf := m }

/-- R159, R151: the padding of every chunk: half in front, the odd bit at the back, none for a whole number of bytes. -/
def Obligations.PaddingIsSymmetric : Prop :=
  ∀ seq : List Bool,
    (frame seq).length = (seq.length + 7) / 8 ∧
    ∃ front back, front ≤ back ∧ back ≤ front + 1 ∧ front + seq.length + back = 8 * (frame seq).length ∧ back ≤ 4 ∧
      (front = 0 ∧ back = 0 ↔ seq.length % 8 = 0) ∧
      ∀ p, p < 8 * (frame seq).length →
        bitAt (fun j => (frame seq).getD j 0) p = (if p < front then false else seq.getD (p - front) false)

/-- R160: two chunks are one when the first is a whole number of bytes and the second has at most one padding bit. -/
def Obligations.AlignedChunksCompose : Prop :=
  ∀ a b : List Bool, a.length % 8 = 0 → b.length % 8 = 0 ∨ b.length % 8 = 7 →
    frame (a ++ b) = frame a ++ frame b

/-- R230, R231: the checksum of a string, nibble by nibble; the empty string has none. -/
def Obligations.StreamChecksumFollowsItsFormula : Prop :=
  ∀ text : List Byte,
    (streamChecksum text).length = text.length ∧
    ∀ k, k < text.length →
      ((streamChecksum text).getD k 0).toNat = checksumNibble text.length (fun j => (text.getD j 0).toNat) k

/-- R232, R233: extraction inverts embedding, and every 12-bit integer is the embedding of exactly one pair. -/
def Obligations.EmbeddingIsABijection : Prop :=
  (∀ (c : Byte) (k : BitVec 4), extractCode (embed c k) = c ∧ extractNibble (embed c k) = k ∧
    (embed c k).toNat = embedNumber c.toNat k.toNat) ∧
  (∀ r : BitVec 12, (extractCode r).toNat = codeNumber r.toNat ∧ (extractNibble r).toNat = nibbleNumber r.toNat) ∧
  (∀ r : BitVec 12, ∃ c k, embed c k = r ∧ ∀ d l, embed d l = r → d = c ∧ l = k)

/-- R203: an operand that holds the sentinel None or Ignore makes the encoders fail with `E_ENUM`, about it or about an operand before
it; a decoder delivers wire codes only, so neither of them. -/
def Obligations.SentinelsAreNotValues : Prop :=
  (∀ (sb : Bool) (s : State) (k : Nat), k < s.count.toNat → s.count.toNat ≤ s.params.nv →
    (s.rawAt k).toNat = 2 ^ 64 - 42 ∨ (s.rawAt k).toNat = 2 ^ 64 - 153 →
    (∃ j ≤ k, exec (.encHs sb) s = .next (s.failed 4 j (s.rawAt j))) ∧
    ∃ j ≤ k, exec (.encRs sb) s = .next (s.failed 4 j (s.rawAt j))) ∧
  (∀ (sb : Bool) (s t : State), s.params.wf → statusErr t.status = false → ∀ k < t.count.toNat,
    (exec (.decHs sb) s = .next t →
      IsHandshake (t.rawAt k).toNat ∧ (t.rawAt k).toNat ≠ 2 ^ 64 - 42 ∧ (t.rawAt k).toNat ≠ 2 ^ 64 - 153) ∧
    (exec (.decRs sb) s = .next t →
      IsReceiveStatus (t.rawAt k).toNat ∧ (t.rawAt k).toNat ≠ 2 ^ 64 - 42 ∧ (t.rawAt k).toNat ≠ 2 ^ 64 - 153))

/-- R48, R49: the result of a command depends only on the command, COUNT, IN_LEN, the value buffer and IBUF (in one configuration
and draw), not on STATUS, ERRIDX, ERRVAL, OUT_LEN, MISCNT or OBUF. -/
def Obligations.ResultsDependOnInputsAlone : Prop :=
  ∀ (i : Instr) (s u t v : State), s.SameInputs u → exec i s = .next t → exec i u = .next v →
    t.x = v.x ∧ t.count = v.count ∧ t.errIdx = v.errIdx ∧ t.errVal = v.errVal ∧
    t.status &&& 0xFF#32 = v.status &&& 0xFF#32 ∧
    (statusErr t.status = false → t.misCnt = v.misCnt ∧
      (isEncode i = true → t.outLen = v.outLen ∧ ∀ j < t.outLen.toNat, t.obufAt j = v.obufAt j))

/-- R343, R341: a command whose inputs the host has written does not depend on the draws of the unwritten cells. -/
def Obligations.WrittenInputsMakeDrawsIrrelevant : Prop :=
  ∀ (i : Instr) (s t : State) (k : Nat), s.InputsWritten i →
    exec i s = .next t → exec i { s with drawNo := k } = .next { t with drawNo := k }
end

