-- ==== Sys2Proof/Laws/Bits.lean ====
section
/-! SUPPORT. The laws of bit sequences, bytes, chunks and fields: their lengths, and each bit by its position. A bit of a
sequence is always written `s.getD p false`. -/

namespace Sys2Proof.Machine

/-! ## Numbers and their bits (R9) -/

@[simp] theorem length_bitsOf (w v : Nat) : (bitsOf w v).length = w := by
  induction w with
  | zero => rfl
  | succ w ih => simp [bitsOf, ih]

theorem getD_bitsOf (w v i : Nat) : (bitsOf w v).getD i false = (decide (i < w) && v.testBit (w - 1 - i)) := by
  induction w generalizing i with
  | zero => simp [bitsOf]
  | succ w ih =>
    cases i with
    | zero => simp [bitsOf]
    | succ i =>
      simp only [bitsOf, List.getD_cons_succ, ih]
      congr 1
      · simp
      · congr 1; omega

theorem valOf_append_singleton (bs : List Bool) (b : Bool) : valOf (bs ++ [b]) = 2 * valOf bs + b.toNat := by
  simp [valOf]

theorem valOf_nil : valOf [] = 0 := rfl

theorem valOf_lt (bs : List Bool) : valOf bs < 2 ^ bs.length := by
  induction bs using List.reverseRecOn with
  | nil => simp [valOf]
  | append_singleton bs b ih =>
    rw [valOf_append_singleton]
    have := Bool.toNat_lt b
    simp [Nat.pow_succ]; omega

/-- The bit `b` of the number a sequence spells is the sequence's bit `b` from its end. -/
theorem testBit_valOf (bs : List Bool) (b : Nat) :
    (valOf bs).testBit b = (decide (b < bs.length) && bs.getD (bs.length - 1 - b) false) := by
  induction bs using List.reverseRecOn generalizing b with
  | nil => simp [valOf]
  | append_singleton bs x ih =>
    rw [valOf_append_singleton]
    cases b with
    | zero =>
      rw [Nat.testBit_zero]
      simp
      cases x <;> simp
    | succ b =>
      have hx := Bool.toNat_lt x
      rw [Nat.testBit_succ, show (2 * valOf bs + x.toNat) / 2 = valOf bs by omega, ih]
      simp only [List.length_append, List.length_singleton]
      by_cases hb : b < bs.length
      · rw [List.getD_append _ _ _ _ (by omega), show bs.length + 1 - 1 - (b + 1) = bs.length - 1 - b by omega]
        simp [hb]
      · simp [hb]

theorem valOf_bitsOf (w v : Nat) (h : v < 2 ^ w) : valOf (bitsOf w v) = v := by
  apply Nat.eq_of_testBit_eq
  intro b
  rw [testBit_valOf, getD_bitsOf, length_bitsOf]
  by_cases hb : b < w
  · simp [hb, show w - 1 - b < w by omega, show w - 1 - (w - 1 - b) = b by omega]
  · simp [hb]
    exact (Nat.testBit_lt_two_pow (Nat.lt_of_lt_of_le h (Nat.pow_le_pow_right (by omega) (Nat.le_of_not_lt hb))))

/-! ## Bytes and their bits (R10) -/

theorem length_bytesToBits (B : List Byte) : (bytesToBits B).length = 8 * B.length := by
  induction B with
  | nil => rfl
  | cons b B ih =>
    have : bytesToBits (b :: B) = bitsOf 8 b.toNat ++ bytesToBits B := rfl
    rw [this, List.length_append, ih, length_bitsOf, List.length_cons]; omega

/-- Position `p` of a byte buffer's bits is bit `7 - (p mod 8)` of byte `p // 8`. -/
theorem getD_bytesToBits (B : List Byte) (p : Nat) :
    (bytesToBits B).getD p false = bitAt (fun j => B.getD j 0) p := by
  induction B generalizing p with
  | nil => simp [bytesToBits, bitAt]
  | cons b B ih =>
    have hb : bytesToBits (b :: B) = bitsOf 8 b.toNat ++ bytesToBits B := rfl
    rw [hb]
    by_cases hp : p < 8
    · rw [List.getD_append _ _ _ _ (by simpa using hp), getD_bitsOf]
      simp only [bitAt, show p / 8 = 0 by omega, show p % 8 = p by omega, List.getD_cons_zero, hp, decide_true,
        Bool.true_and]
      rw [BitVec.testBit_toNat]
    · rw [List.getD_append_right _ _ _ _ (by simpa using hp), length_bitsOf, ih]
      obtain ⟨q, rfl⟩ : ∃ q, p = q + 8 := ⟨p - 8, by omega⟩
      simp only [bitAt, show (q + 8) / 8 = q / 8 + 1 by omega, Nat.add_mod_right, Nat.add_sub_cancel,
        List.getD_cons_succ]

theorem bitsToBytes_cons8 (b7 b6 b5 b4 b3 b2 b1 b0 : Bool) (bs : List Bool) :
    bitsToBytes (b7 :: b6 :: b5 :: b4 :: b3 :: b2 :: b1 :: b0 :: bs) =
      BitVec.ofNat 8 (valOf [b7, b6, b5, b4, b3, b2, b1, b0]) :: bitsToBytes bs := by rw [bitsToBytes]

/-- A sequence of `8 * n + 8` bits begins with eight of them. -/
theorem exists_eight {bs : List Bool} {n : Nat} (h : bs.length = 8 * (n + 1)) :
    ∃ b7 b6 b5 b4 b3 b2 b1 b0 cs, bs = b7 :: b6 :: b5 :: b4 :: b3 :: b2 :: b1 :: b0 :: cs ∧ cs.length = 8 * n := by
  match bs, h with
  | b7 :: b6 :: b5 :: b4 :: b3 :: b2 :: b1 :: b0 :: cs, h =>
    exact ⟨b7, b6, b5, b4, b3, b2, b1, b0, cs, rfl, by simp at h; omega⟩

theorem length_bitsToBytes {bs : List Bool} {n : Nat} (h : bs.length = 8 * n) : (bitsToBytes bs).length = n := by
  induction n generalizing bs with
  | zero => obtain rfl := List.eq_nil_of_length_eq_zero (by simpa using h); rfl
  | succ n ih =>
    obtain ⟨b7, b6, b5, b4, b3, b2, b1, b0, cs, rfl, hc⟩ := exists_eight h
    rw [bitsToBytes_cons8, List.length_cons, ih hc]

/-- Writing bits into bytes keeps every bit at its position. -/
theorem bitAt_bitsToBytes {bs : List Bool} {n : Nat} (h : bs.length = 8 * n) (p : Nat) :
    bitAt (fun j => (bitsToBytes bs).getD j 0) p = bs.getD p false := by
  induction n generalizing bs p with
  | zero => obtain rfl := List.eq_nil_of_length_eq_zero (by simpa using h); simp [bitsToBytes, bitAt]
  | succ n ih =>
    obtain ⟨b7, b6, b5, b4, b3, b2, b1, b0, cs, rfl, hc⟩ := exists_eight h
    rw [bitsToBytes_cons8]
    by_cases hp : p < 8
    · simp only [bitAt, show p / 8 = 0 by omega, show p % 8 = p by omega, List.getD_cons_zero]
      rw [BitVec.getLsbD_ofNat, testBit_valOf]
      have : p = 0 ∨ p = 1 ∨ p = 2 ∨ p = 3 ∨ p = 4 ∨ p = 5 ∨ p = 6 ∨ p = 7 := by omega
      rcases this with rfl | rfl | rfl | rfl | rfl | rfl | rfl | rfl <;> simp
    · obtain ⟨q, rfl⟩ : ∃ q, p = q + 8 := ⟨p - 8, by omega⟩
      have := ih hc q
      simp only [bitAt] at this
      simp only [bitAt, show (q + 8) / 8 = q / 8 + 1 by omega, Nat.add_mod_right, List.getD_cons_succ, this]

/-! ## Chunks (R150, R151) -/

@[simp] theorem length_stopBits (s : Bool) : (stopBits s).length = s.toNat := by cases s <;> rfl

theorem frontBits_le (T : Nat) : frontBits T ≤ 3 := by simp [frontBits, padBits]; omega

theorem frontBits_add_backBits (T : Nat) : frontBits T + T + backBits T = 8 * ceilDiv T 8 := by
  simp only [frontBits, backBits, padBits, ceilDiv]; omega

theorem ceilDiv_eight (T : Nat) : ceilDiv T 8 = (T + 7) / 8 := rfl

theorem length_frame (seq : List Bool) : (frame seq).length = ceilDiv seq.length 8 :=
  length_bitsToBytes (by simp only [List.length_append, List.length_replicate]; exact frontBits_add_backBits _)

/-- Every bit of a chunk: the front padding, the sequence, the back padding. -/
theorem bitAt_frame (seq : List Bool) (p : Nat) :
    bitAt (fun j => (frame seq).getD j 0) p =
      if p < frontBits seq.length then false else seq.getD (p - frontBits seq.length) false := by
  rw [frame, bitAt_bitsToBytes (n := ceilDiv seq.length 8)
    (by simp only [List.length_append, List.length_replicate]; exact frontBits_add_backBits _)]
  split
  · rename_i h
    rw [List.getD_append _ _ _ _ (by simp; omega), List.getD_append _ _ _ _ (by simpa using h)]
    simp [h]
  · rename_i h
    by_cases h2 : p < frontBits seq.length + seq.length
    · rw [List.getD_append _ _ _ _ (by simpa using h2), List.getD_append_right _ _ _ _ (by simpa using h)]
      simp
    · rw [List.getD_append_right _ _ _ _ (by simp; omega)]
      simp only [List.getD_eq_getElem?_getD, List.getElem?_replicate]
      rw [List.getElem?_eq_none (by omega)]
      split <;> rfl

theorem length_serialize (fields : List (Nat × Nat)) (s : Bool) :
    (serialize fields s).length = totalBits (fields.map (·.1)) s := by
  induction fields with
  | nil => rfl
  | cons f fs ih =>
    simp only [serialize, totalBits, List.flatMap_cons, List.map_cons, List.sum_cons, List.length_append, length_bitsOf,
      length_stopBits] at ih ⊢
    omega

theorem bitOffset_zero (w : Nat → Nat) (sb : Bool) : bitOffset w sb 0 = 0 := rfl

theorem bitOffset_succ (w : Nat → Nat) (sb : Bool) (n : Nat) :
    bitOffset w sb (n + 1) = bitOffset w sb n + (w n + sb.toNat) := by
  simp [bitOffset, List.range_succ]

/-- The offsets of fields of one width. -/
theorem bitOffset_const (w : Nat) (sb : Bool) (n : Nat) : bitOffset (fun _ => w) sb n = n * (w + sb.toNat) := by
  simp [bitOffset]

theorem bitOffset_congr {w w' : Nat → Nat} {sb : Bool} {n : Nat} (h : ∀ k < n, w k = w' k) :
    bitOffset w sb n = bitOffset w' sb n := by
  unfold bitOffset
  congr 1
  exact List.map_congr_left fun k hk => by rw [h k (List.mem_range.1 hk)]

theorem bitOffset_mono {w : Nat → Nat} {sb : Bool} {i n : Nat} (h : i < n) :
    bitOffset w sb i + (w i + sb.toNat) ≤ bitOffset w sb n := by
  induction n with
  | zero => omega
  | succ n ih =>
    rw [bitOffset_succ]
    by_cases hi : i = n
    · subst hi; omega
    · have := ih (by omega); omega

theorem serialize_append (fs gs : List (Nat × Nat)) (sb : Bool) :
    serialize (fs ++ gs) sb = serialize fs sb ++ serialize gs sb := by simp [serialize]

/-- The fields `(w k, r k)` for `k < n`, as one sequence: its length. -/
theorem length_serialize_range (w r : Nat → Nat) (sb : Bool) (n : Nat) :
    (serialize ((List.range n).map fun k => (w k, r k)) sb).length = bitOffset w sb n := by
  rw [length_serialize]; simp [totalBits, bitOffset, Function.comp_def]

/-- Bit `b` of field `i` in the sequence. -/
theorem getD_serialize_value (w r : Nat → Nat) (sb : Bool) {n i b : Nat} (hi : i < n) (hb : b < w i) :
    (serialize ((List.range n).map fun k => (w k, r k)) sb).getD (bitOffset w sb i + (w i - 1 - b)) false =
      (r i).testBit b := by
  induction n with
  | zero => omega
  | succ n ih =>
    rw [List.range_succ, List.map_append, serialize_append]
    by_cases h : i = n
    · subst h
      rw [List.getD_append_right _ _ _ _ (by rw [length_serialize_range]; omega), length_serialize_range,
        Nat.add_sub_cancel_left]
      simp only [serialize, List.map_cons, List.map_nil, List.flatMap_cons, List.flatMap_nil, List.append_nil]
      rw [List.getD_append _ _ _ _ (by simp; omega), getD_bitsOf]
      simp [show w i - 1 - b < w i by omega, show w i - 1 - (w i - 1 - b) = b by omega]
    · have := bitOffset_mono (w := w) (sb := sb) (show i < n by omega)
      rw [List.getD_append _ _ _ _ (by rw [length_serialize_range]; omega), ih (by omega)]

/-- The stop bit of field `i` in the sequence. -/
theorem getD_serialize_stop (w r : Nat → Nat) {n i : Nat} (hi : i < n) :
    (serialize ((List.range n).map fun k => (w k, r k)) true).getD (bitOffset w true i + w i) false = true := by
  induction n with
  | zero => omega
  | succ n ih =>
    rw [List.range_succ, List.map_append, serialize_append]
    by_cases h : i = n
    · subst h
      rw [List.getD_append_right _ _ _ _ (by rw [length_serialize_range]; omega), length_serialize_range,
        Nat.add_sub_cancel_left]
      simp [serialize, stopBits]
    · have := bitOffset_mono (w := w) (sb := true) (show i < n by omega)
      rw [List.getD_append _ _ _ _ (by rw [length_serialize_range]; simp at this; omega), ih (by omega)]

/-! ## Fields (R152, R153) -/

@[simp] theorem length_takeFields (e n : Nat) (bits : List Bool) : (takeFields e n bits).length = n := by
  induction n generalizing bits with
  | zero => rfl
  | succ n ih => simp [takeFields, ih]

theorem getElem_takeFields (e n : Nat) (bits : List Bool) (k : Nat) (h : k < (takeFields e n bits).length) :
    (takeFields e n bits)[k] = valOf ((bits.drop (k * e)).take e) := by
  induction n generalizing bits k with
  | zero => simp [takeFields] at h
  | succ n ih =>
    cases k with
    | zero => simp [takeFields]
    | succ k =>
      simp only [takeFields, List.getElem_cons_succ]
      rw [ih]
      simp [List.drop_drop, Nat.succ_mul, Nat.add_comm]

@[simp] theorem length_unframe (B : List Byte) (s : Bool) (w : Nat) :
    (unframe B s w).length = fieldCount B.length w s := by simp [unframe]

end Sys2Proof.Machine
end

