-- ==== Sys2Proof/Laws/Sparse.lean ====
section
/-! SUPPORT. The laws of sparse cells: a read after a write, the canonical form kept by every operation, and equal contents
being equal data. -/

namespace Sys2Proof.Machine

variable {α : Type}

/-! ## Reads after writes -/

@[simp] theorem Sparse.find_nil (a : Nat) : Sparse.find ([] : Sparse α) a = none := rfl

@[simp] theorem Sparse.find_cons (k : Nat) (v : α) (m : Sparse α) (a : Nat) :
    Sparse.find ((k, v) :: m) a = if k = a then some v else Sparse.find m a := rfl

/-- A read after a write of one cell. -/
theorem Sparse.find_put (m : Sparse α) (a : Nat) (v : α) (b : Nat) :
    Sparse.find (Sparse.put m a v) b = if a = b then some v else Sparse.find m b := by
  induction m with
  | nil => simp [Sparse.put]
  | cons c m ih =>
    obtain ⟨k, u⟩ := c
    simp only [Sparse.put]
    split
    · rw [Sparse.find_cons, ih, Sparse.find_cons]; split <;> split <;> first | rfl | omega
    · split
      · subst k; rw [Sparse.find_cons, Sparse.find_cons]; split <;> rfl
      · rw [Sparse.find_cons]

theorem Sparse.find_number (vs : List α) (k a : Nat) :
    Sparse.find (Sparse.number k vs) a = if k ≤ a then vs[a - k]? else none := by
  induction vs generalizing k with
  | nil => simp [Sparse.number]
  | cons v vs ih =>
    simp only [Sparse.number, Sparse.find_cons, ih]
    by_cases h : k = a
    · subst k; simp
    · by_cases h' : k ≤ a
      · have : a - k = (a - (k + 1)) + 1 := by omega
        simp [h, h', show k + 1 ≤ a by omega, this]
      · simp [h, h', show ¬ k + 1 ≤ a by omega]

theorem Sparse.find_append (m l : Sparse α) (a : Nat) :
    Sparse.find (m ++ l) a = (Sparse.find m a).or (Sparse.find l a) := by
  induction m with
  | nil => rfl
  | cons c m ih =>
    obtain ⟨k, v⟩ := c
    simp only [List.cons_append, Sparse.find_cons, ih]
    split <;> simp

theorem Sparse.find_filter_ge (m : Sparse α) (n a : Nat) (h : n ≤ a) :
    Sparse.find (m.filter fun c => decide (n ≤ c.1)) a = Sparse.find m a := by
  induction m with
  | nil => rfl
  | cons c m ih =>
    obtain ⟨k, v⟩ := c
    simp only [List.filter_cons]
    split
    · rw [Sparse.find_cons, Sparse.find_cons, ih]
    · rename_i hk
      have : ¬ k = a := by simp at hk; omega
      rw [ih, Sparse.find_cons, if_neg this]

/-- A read after the cells `0` to `vs.length - 1` were written. -/
theorem Sparse.find_putAll (m : Sparse α) (vs : List α) (a : Nat) :
    Sparse.find (Sparse.putAll m vs) a = if h : a < vs.length then some vs[a] else Sparse.find m a := by
  rw [Sparse.putAll, Sparse.find_append, Sparse.find_number]
  by_cases h : a < vs.length
  · simp [h]
  · simp [h, Sparse.find_filter_ge m vs.length a (by omega)]

/-! ## The canonical form -/

theorem Sparse.mem_put {m : Sparse α} {a : Nat} {v : α} {c : Nat × α} (h : c ∈ Sparse.put m a v) : c = (a, v) ∨ c ∈ m := by
  induction m with
  | nil => simpa [Sparse.put] using h
  | cons d m ih =>
    obtain ⟨k, u⟩ := d
    simp only [Sparse.put] at h
    split at h
    · rcases List.mem_cons.1 h with h | h
      · simp [h]
      · rcases ih h with h | h <;> simp [h]
    · split at h <;> rcases List.mem_cons.1 h with h | h <;> simp [h]

theorem Sparse.wf_nil (n : Nat) : Sparse.wf n ([] : Sparse α) := by simp [Sparse.wf]

/-- Writing a cell keeps the canonical form. -/
theorem Sparse.wf_put {n : Nat} {m : Sparse α} (h : Sparse.wf n m) {a : Nat} (ha : a < n) (v : α) :
    Sparse.wf n (Sparse.put m a v) := by
  refine ⟨?_, fun c hc => (Sparse.mem_put hc).elim (fun e => e ▸ ha) (h.2 c)⟩
  have hs := h.1
  clear h
  induction m with
  | nil => simp [Sparse.put]
  | cons c m ih =>
    obtain ⟨k, u⟩ := c
    rw [List.pairwise_cons] at hs
    simp only [Sparse.put]
    split
    · rw [List.pairwise_cons]
      exact ⟨fun d hd => (Sparse.mem_put hd).elim (fun e => by simp_all) (hs.1 d), ih hs.2⟩
    · split
      · subst k; exact List.pairwise_cons.2 ⟨hs.1, hs.2⟩
      · refine List.pairwise_cons.2 ⟨fun d hd => ?_, List.pairwise_cons.2 hs⟩
        rcases List.mem_cons.1 hd with rfl | hd
        · simp; omega
        · have := hs.1 d hd; simp at this ⊢; omega

theorem Sparse.number_bounds {vs : List α} {k : Nat} {c : Nat × α} (h : c ∈ Sparse.number k vs) :
    k ≤ c.1 ∧ c.1 < k + vs.length := by
  induction vs generalizing k with
  | nil => simp [Sparse.number] at h
  | cons v vs ih =>
    rcases List.mem_cons.1 h with h | h
    · subst h; simp
    · have := ih h; simp; omega

theorem Sparse.number_pairwise (vs : List α) (k : Nat) : (Sparse.number k vs).Pairwise fun c d => c.1 < d.1 := by
  induction vs generalizing k with
  | nil => exact List.Pairwise.nil
  | cons v vs ih =>
    exact List.pairwise_cons.2 ⟨fun c hc => by have := Sparse.number_bounds hc; simp; omega, ih (k + 1)⟩

/-- Writing the first cells keeps the canonical form. -/
theorem Sparse.wf_putAll {n : Nat} {m : Sparse α} (h : Sparse.wf n m) {vs : List α} (hv : vs.length ≤ n) :
    Sparse.wf n (Sparse.putAll m vs) := by
  constructor
  · refine List.pairwise_append.2 ⟨Sparse.number_pairwise vs 0, h.1.filter _, fun c hc d hd => ?_⟩
    have hc := Sparse.number_bounds hc
    have hd := (List.mem_filter.1 hd).2
    simp at hd
    omega
  · intro c hc
    rcases List.mem_append.1 hc with hc | hc
    · have := Sparse.number_bounds hc; omega
    · exact h.2 c (List.mem_filter.1 hc).1

theorem Sparse.find_eq_none_of_lt {m : Sparse α} {a : Nat} (h : ∀ c ∈ m, a < c.1) : Sparse.find m a = none := by
  induction m with
  | nil => rfl
  | cons c m ih =>
    obtain ⟨k, v⟩ := c
    have := h (k, v) (by simp)
    rw [Sparse.find_cons, if_neg (by simp at this; omega), ih fun c hc => h c (by simp [hc])]

/-- Canonical cells with equal contents are equal data. -/
theorem Sparse.ext {m l : Sparse α} (hm : m.Pairwise fun c d => c.1 < d.1) (hl : l.Pairwise fun c d => c.1 < d.1)
    (h : ∀ a, Sparse.find m a = Sparse.find l a) : m = l := by
  induction m generalizing l with
  | nil =>
    cases l with
    | nil => rfl
    | cons c l => obtain ⟨j, u⟩ := c; have := h j; simp at this
  | cons c m ih =>
    obtain ⟨k, v⟩ := c
    rw [List.pairwise_cons] at hm
    cases l with
    | nil => have := h k; simp at this
    | cons d l =>
      obtain ⟨j, u⟩ := d
      rw [List.pairwise_cons] at hl
      have key : ∀ {a b : Nat} {w x : α} {p q : Sparse α}, (∀ c ∈ q, b < c.1) →
          (∀ e, Sparse.find ((a, w) :: p) e = Sparse.find ((b, x) :: q) e) → b ≤ a := by
        intro a b w x p q hq he
        by_contra hlt
        have := he a
        rw [Sparse.find_cons, if_pos rfl, Sparse.find_cons, if_neg (by omega),
          Sparse.find_eq_none_of_lt fun c hc => by have := hq c hc; omega] at this
        simp at this
      have e1 : j ≤ k := key (fun c hc => hl.1 c hc) h
      have e2 : k ≤ j := key (fun c hc => hm.1 c hc) fun e => (h e).symm
      obtain rfl : k = j := by omega
      have hv : v = u := by simpa using h k
      subst hv
      rw [ih hm.2 hl.2 fun a => ?_]
      by_cases ha : k = a
      · subst a
        rw [Sparse.find_eq_none_of_lt fun c hc => hm.1 c hc, Sparse.find_eq_none_of_lt fun c hc => hl.1 c hc]
      · simpa [ha] using h a

end Sys2Proof.Machine
end

