-- ==== Sys2Proof/Laws/State.lean ====
section
/-! SUPPORT. One lemma for each field of each named update of the state, all by `rfl`, and the reads of cells that an update
leaves alone. -/

namespace Sys2Proof.Machine

variable (s : State)

/-! ## `done()` (R301) -/

@[simp] theorem State.done_params : s.done.params = s.params := rfl
@[simp] theorem State.done_cmd : s.done.cmd = s.cmd := rfl
@[simp] theorem State.done_status : s.done.status = successStatus (s.misCnt != 0) (statusSticky s.status) := rfl
@[simp] theorem State.done_errIdx : s.done.errIdx = 0 := rfl
@[simp] theorem State.done_errVal : s.done.errVal = 0 := rfl
@[simp] theorem State.done_count : s.done.count = s.count := rfl
@[simp] theorem State.done_inLen : s.done.inLen = s.inLen := rfl
@[simp] theorem State.done_outLen : s.done.outLen = s.outLen := rfl
@[simp] theorem State.done_misCnt : s.done.misCnt = s.misCnt := rfl
@[simp] theorem State.done_x : s.done.x = s.x := rfl
@[simp] theorem State.done_ibuf : s.done.ibuf = s.ibuf := rfl
@[simp] theorem State.done_obuf : s.done.obuf = s.obuf := rfl
@[simp] theorem State.done_drawNo : s.done.drawNo = s.drawNo := rfl
@[simp] theorem State.done_host : s.done.host = s.host := rfl
@[simp] theorem State.done_rdata : s.done.rdata = s.rdata := rfl
@[simp] theorem State.done_rawLoAt (k : Nat) : s.done.rawLoAt k = s.rawLoAt k := rfl
@[simp] theorem State.done_rawHiAt (k : Nat) : s.done.rawHiAt k = s.rawHiAt k := rfl
@[simp] theorem State.done_rawAt (k : Nat) : s.done.rawAt k = s.rawAt k := rfl
@[simp] theorem State.done_widthAt (k : Nat) : s.done.widthAt k = s.widthAt k := rfl
@[simp] theorem State.done_auxAt (k : Nat) : s.done.auxAt k = s.auxAt k := rfl
@[simp] theorem State.done_ibufAt (k : Nat) : s.done.ibufAt k = s.ibufAt k := rfl
@[simp] theorem State.done_obufAt (k : Nat) : s.done.obufAt k = s.obufAt k := rfl

/-! ## `raise` (R302) -/

@[simp] theorem State.raise_params (e : CmdError) : (s.raise e).params = s.params := rfl
@[simp] theorem State.raise_cmd (e : CmdError) : (s.raise e).cmd = s.cmd := rfl
@[simp] theorem State.raise_status (e : CmdError) : (s.raise e).status = errorStatus e.code := rfl
@[simp] theorem State.raise_errIdx (e : CmdError) : (s.raise e).errIdx = e.idx := rfl
@[simp] theorem State.raise_errVal (e : CmdError) : (s.raise e).errVal = e.val := rfl
@[simp] theorem State.raise_count (e : CmdError) : (s.raise e).count = s.count := rfl
@[simp] theorem State.raise_inLen (e : CmdError) : (s.raise e).inLen = s.inLen := rfl
@[simp] theorem State.raise_outLen (e : CmdError) : (s.raise e).outLen = s.outLen := rfl
@[simp] theorem State.raise_misCnt (e : CmdError) : (s.raise e).misCnt = s.misCnt := rfl
@[simp] theorem State.raise_x (e : CmdError) : (s.raise e).x = s.x := rfl
@[simp] theorem State.raise_ibuf (e : CmdError) : (s.raise e).ibuf = s.ibuf := rfl
@[simp] theorem State.raise_obuf (e : CmdError) : (s.raise e).obuf = s.obuf := rfl
@[simp] theorem State.raise_drawNo (e : CmdError) : (s.raise e).drawNo = s.drawNo := rfl
@[simp] theorem State.raise_host (e : CmdError) : (s.raise e).host = s.host := rfl
@[simp] theorem State.raise_rdata (e : CmdError) : (s.raise e).rdata = s.rdata := rfl
@[simp] theorem State.raise_rawLoAt (e : CmdError) (k : Nat) : (s.raise e).rawLoAt k = s.rawLoAt k := rfl
@[simp] theorem State.raise_rawHiAt (e : CmdError) (k : Nat) : (s.raise e).rawHiAt k = s.rawHiAt k := rfl
@[simp] theorem State.raise_rawAt (e : CmdError) (k : Nat) : (s.raise e).rawAt k = s.rawAt k := rfl
@[simp] theorem State.raise_widthAt (e : CmdError) (k : Nat) : (s.raise e).widthAt k = s.widthAt k := rfl
@[simp] theorem State.raise_auxAt (e : CmdError) (k : Nat) : (s.raise e).auxAt k = s.auxAt k := rfl
@[simp] theorem State.raise_ibufAt (e : CmdError) (k : Nat) : (s.raise e).ibufAt k = s.ibufAt k := rfl
@[simp] theorem State.raise_obufAt (e : CmdError) (k : Nat) : (s.raise e).obufAt k = s.obufAt k := rfl

/-! ## What an encode stores -/

@[simp] theorem State.storeEncode_params (L : Nat) (out : List Byte) : (s.storeEncode L out).params = s.params := rfl
@[simp] theorem State.storeEncode_cmd (L : Nat) (out : List Byte) : (s.storeEncode L out).cmd = s.cmd := rfl
@[simp] theorem State.storeEncode_status (L : Nat) (out : List Byte) : (s.storeEncode L out).status = s.status := rfl
@[simp] theorem State.storeEncode_errIdx (L : Nat) (out : List Byte) : (s.storeEncode L out).errIdx = s.errIdx := rfl
@[simp] theorem State.storeEncode_errVal (L : Nat) (out : List Byte) : (s.storeEncode L out).errVal = s.errVal := rfl
@[simp] theorem State.storeEncode_count (L : Nat) (out : List Byte) : (s.storeEncode L out).count = s.count := rfl
@[simp] theorem State.storeEncode_inLen (L : Nat) (out : List Byte) : (s.storeEncode L out).inLen = s.inLen := rfl
@[simp] theorem State.storeEncode_outLen (L : Nat) (out : List Byte) : (s.storeEncode L out).outLen = BitVec.ofNat 32 L := rfl
@[simp] theorem State.storeEncode_misCnt (L : Nat) (out : List Byte) : (s.storeEncode L out).misCnt = 0 := rfl
@[simp] theorem State.storeEncode_x (L : Nat) (out : List Byte) : (s.storeEncode L out).x = s.x := rfl
@[simp] theorem State.storeEncode_ibuf (L : Nat) (out : List Byte) : (s.storeEncode L out).ibuf = s.ibuf := rfl
@[simp] theorem State.storeEncode_obuf (L : Nat) (out : List Byte) : (s.storeEncode L out).obuf = Sparse.putAll s.obuf out := rfl
@[simp] theorem State.storeEncode_drawNo (L : Nat) (out : List Byte) : (s.storeEncode L out).drawNo = s.drawNo := rfl
@[simp] theorem State.storeEncode_host (L : Nat) (out : List Byte) : (s.storeEncode L out).host = s.host := rfl
@[simp] theorem State.storeEncode_rdata (L : Nat) (out : List Byte) : (s.storeEncode L out).rdata = s.rdata := rfl
@[simp] theorem State.storeEncode_rawLoAt (L : Nat) (out : List Byte) (k : Nat) : (s.storeEncode L out).rawLoAt k = s.rawLoAt k := rfl
@[simp] theorem State.storeEncode_rawHiAt (L : Nat) (out : List Byte) (k : Nat) : (s.storeEncode L out).rawHiAt k = s.rawHiAt k := rfl
@[simp] theorem State.storeEncode_rawAt (L : Nat) (out : List Byte) (k : Nat) : (s.storeEncode L out).rawAt k = s.rawAt k := rfl
@[simp] theorem State.storeEncode_widthAt (L : Nat) (out : List Byte) (k : Nat) : (s.storeEncode L out).widthAt k = s.widthAt k := rfl
@[simp] theorem State.storeEncode_auxAt (L : Nat) (out : List Byte) (k : Nat) : (s.storeEncode L out).auxAt k = s.auxAt k := rfl
@[simp] theorem State.storeEncode_ibufAt (L : Nat) (out : List Byte) (k : Nat) : (s.storeEncode L out).ibufAt k = s.ibufAt k := rfl

/-! ## What a decode stores -/

@[simp] theorem State.storeDecode_params (w : Nat) (vals : List (BitVec 64)) (auxs : List (BitVec 5)) (mis : Nat) : (s.storeDecode w vals auxs mis).params = s.params := rfl
@[simp] theorem State.storeDecode_cmd (w : Nat) (vals : List (BitVec 64)) (auxs : List (BitVec 5)) (mis : Nat) : (s.storeDecode w vals auxs mis).cmd = s.cmd := rfl
@[simp] theorem State.storeDecode_status (w : Nat) (vals : List (BitVec 64)) (auxs : List (BitVec 5)) (mis : Nat) : (s.storeDecode w vals auxs mis).status = s.status := rfl
@[simp] theorem State.storeDecode_errIdx (w : Nat) (vals : List (BitVec 64)) (auxs : List (BitVec 5)) (mis : Nat) : (s.storeDecode w vals auxs mis).errIdx = s.errIdx := rfl
@[simp] theorem State.storeDecode_errVal (w : Nat) (vals : List (BitVec 64)) (auxs : List (BitVec 5)) (mis : Nat) : (s.storeDecode w vals auxs mis).errVal = s.errVal := rfl
@[simp] theorem State.storeDecode_count (w : Nat) (vals : List (BitVec 64)) (auxs : List (BitVec 5)) (mis : Nat) : (s.storeDecode w vals auxs mis).count = BitVec.ofNat 32 vals.length := rfl
@[simp] theorem State.storeDecode_inLen (w : Nat) (vals : List (BitVec 64)) (auxs : List (BitVec 5)) (mis : Nat) : (s.storeDecode w vals auxs mis).inLen = s.inLen := rfl
@[simp] theorem State.storeDecode_outLen (w : Nat) (vals : List (BitVec 64)) (auxs : List (BitVec 5)) (mis : Nat) : (s.storeDecode w vals auxs mis).outLen = s.outLen := rfl
@[simp] theorem State.storeDecode_misCnt (w : Nat) (vals : List (BitVec 64)) (auxs : List (BitVec 5)) (mis : Nat) : (s.storeDecode w vals auxs mis).misCnt = BitVec.ofNat 32 mis := rfl
@[simp] theorem State.storeDecode_ibuf (w : Nat) (vals : List (BitVec 64)) (auxs : List (BitVec 5)) (mis : Nat) : (s.storeDecode w vals auxs mis).ibuf = s.ibuf := rfl
@[simp] theorem State.storeDecode_obuf (w : Nat) (vals : List (BitVec 64)) (auxs : List (BitVec 5)) (mis : Nat) : (s.storeDecode w vals auxs mis).obuf = s.obuf := rfl
@[simp] theorem State.storeDecode_drawNo (w : Nat) (vals : List (BitVec 64)) (auxs : List (BitVec 5)) (mis : Nat) : (s.storeDecode w vals auxs mis).drawNo = s.drawNo := rfl
@[simp] theorem State.storeDecode_host (w : Nat) (vals : List (BitVec 64)) (auxs : List (BitVec 5)) (mis : Nat) : (s.storeDecode w vals auxs mis).host = s.host := rfl
@[simp] theorem State.storeDecode_rdata (w : Nat) (vals : List (BitVec 64)) (auxs : List (BitVec 5)) (mis : Nat) : (s.storeDecode w vals auxs mis).rdata = s.rdata := rfl
@[simp] theorem State.storeDecode_ibufAt (w : Nat) (vals : List (BitVec 64)) (auxs : List (BitVec 5)) (mis : Nat) (k : Nat) : (s.storeDecode w vals auxs mis).ibufAt k = s.ibufAt k := rfl
@[simp] theorem State.storeDecode_obufAt (w : Nat) (vals : List (BitVec 64)) (auxs : List (BitVec 5)) (mis : Nat) (k : Nat) : (s.storeDecode w vals auxs mis).obufAt k = s.obufAt k := rfl

/-! ## What a checksum stores -/

@[simp] theorem State.storeAux_params (auxs : List (BitVec 5)) : (s.storeAux auxs).params = s.params := rfl
@[simp] theorem State.storeAux_cmd (auxs : List (BitVec 5)) : (s.storeAux auxs).cmd = s.cmd := rfl
@[simp] theorem State.storeAux_status (auxs : List (BitVec 5)) : (s.storeAux auxs).status = s.status := rfl
@[simp] theorem State.storeAux_errIdx (auxs : List (BitVec 5)) : (s.storeAux auxs).errIdx = s.errIdx := rfl
@[simp] theorem State.storeAux_errVal (auxs : List (BitVec 5)) : (s.storeAux auxs).errVal = s.errVal := rfl
@[simp] theorem State.storeAux_count (auxs : List (BitVec 5)) : (s.storeAux auxs).count = s.count := rfl
@[simp] theorem State.storeAux_inLen (auxs : List (BitVec 5)) : (s.storeAux auxs).inLen = s.inLen := rfl
@[simp] theorem State.storeAux_outLen (auxs : List (BitVec 5)) : (s.storeAux auxs).outLen = s.outLen := rfl
@[simp] theorem State.storeAux_misCnt (auxs : List (BitVec 5)) : (s.storeAux auxs).misCnt = s.misCnt := rfl
@[simp] theorem State.storeAux_x (auxs : List (BitVec 5)) : (s.storeAux auxs).x = { s.x with aux := s.x.aux.putAll auxs } := rfl
@[simp] theorem State.storeAux_ibuf (auxs : List (BitVec 5)) : (s.storeAux auxs).ibuf = s.ibuf := rfl
@[simp] theorem State.storeAux_obuf (auxs : List (BitVec 5)) : (s.storeAux auxs).obuf = s.obuf := rfl
@[simp] theorem State.storeAux_drawNo (auxs : List (BitVec 5)) : (s.storeAux auxs).drawNo = s.drawNo := rfl
@[simp] theorem State.storeAux_host (auxs : List (BitVec 5)) : (s.storeAux auxs).host = s.host := rfl
@[simp] theorem State.storeAux_rdata (auxs : List (BitVec 5)) : (s.storeAux auxs).rdata = s.rdata := rfl
@[simp] theorem State.storeAux_rawLoAt (auxs : List (BitVec 5)) (k : Nat) : (s.storeAux auxs).rawLoAt k = s.rawLoAt k := rfl
@[simp] theorem State.storeAux_rawHiAt (auxs : List (BitVec 5)) (k : Nat) : (s.storeAux auxs).rawHiAt k = s.rawHiAt k := rfl
@[simp] theorem State.storeAux_rawAt (auxs : List (BitVec 5)) (k : Nat) : (s.storeAux auxs).rawAt k = s.rawAt k := rfl
@[simp] theorem State.storeAux_widthAt (auxs : List (BitVec 5)) (k : Nat) : (s.storeAux auxs).widthAt k = s.widthAt k := rfl
@[simp] theorem State.storeAux_ibufAt (auxs : List (BitVec 5)) (k : Nat) : (s.storeAux auxs).ibufAt k = s.ibufAt k := rfl
@[simp] theorem State.storeAux_obufAt (auxs : List (BitVec 5)) (k : Nat) : (s.storeAux auxs).obufAt k = s.obufAt k := rfl

/-! ## A host's write to IBUF -/

@[simp] theorem State.setIbuf_params (j : Nat) (b : Byte) : (s.setIbuf j b).params = s.params := rfl
@[simp] theorem State.setIbuf_cmd (j : Nat) (b : Byte) : (s.setIbuf j b).cmd = s.cmd := rfl
@[simp] theorem State.setIbuf_status (j : Nat) (b : Byte) : (s.setIbuf j b).status = s.status := rfl
@[simp] theorem State.setIbuf_errIdx (j : Nat) (b : Byte) : (s.setIbuf j b).errIdx = s.errIdx := rfl
@[simp] theorem State.setIbuf_errVal (j : Nat) (b : Byte) : (s.setIbuf j b).errVal = s.errVal := rfl
@[simp] theorem State.setIbuf_count (j : Nat) (b : Byte) : (s.setIbuf j b).count = s.count := rfl
@[simp] theorem State.setIbuf_inLen (j : Nat) (b : Byte) : (s.setIbuf j b).inLen = s.inLen := rfl
@[simp] theorem State.setIbuf_outLen (j : Nat) (b : Byte) : (s.setIbuf j b).outLen = s.outLen := rfl
@[simp] theorem State.setIbuf_misCnt (j : Nat) (b : Byte) : (s.setIbuf j b).misCnt = s.misCnt := rfl
@[simp] theorem State.setIbuf_x (j : Nat) (b : Byte) : (s.setIbuf j b).x = s.x := rfl
@[simp] theorem State.setIbuf_ibuf (j : Nat) (b : Byte) : (s.setIbuf j b).ibuf = Sparse.put s.ibuf j b := rfl
@[simp] theorem State.setIbuf_obuf (j : Nat) (b : Byte) : (s.setIbuf j b).obuf = s.obuf := rfl
@[simp] theorem State.setIbuf_drawNo (j : Nat) (b : Byte) : (s.setIbuf j b).drawNo = s.drawNo := rfl
@[simp] theorem State.setIbuf_host (j : Nat) (b : Byte) : (s.setIbuf j b).host = s.host := rfl
@[simp] theorem State.setIbuf_rdata (j : Nat) (b : Byte) : (s.setIbuf j b).rdata = s.rdata := rfl
@[simp] theorem State.setIbuf_rawLoAt (j : Nat) (b : Byte) (k : Nat) : (s.setIbuf j b).rawLoAt k = s.rawLoAt k := rfl
@[simp] theorem State.setIbuf_rawHiAt (j : Nat) (b : Byte) (k : Nat) : (s.setIbuf j b).rawHiAt k = s.rawHiAt k := rfl
@[simp] theorem State.setIbuf_rawAt (j : Nat) (b : Byte) (k : Nat) : (s.setIbuf j b).rawAt k = s.rawAt k := rfl
@[simp] theorem State.setIbuf_widthAt (j : Nat) (b : Byte) (k : Nat) : (s.setIbuf j b).widthAt k = s.widthAt k := rfl
@[simp] theorem State.setIbuf_auxAt (j : Nat) (b : Byte) (k : Nat) : (s.setIbuf j b).auxAt k = s.auxAt k := rfl
@[simp] theorem State.setIbuf_obufAt (j : Nat) (b : Byte) (k : Nat) : (s.setIbuf j b).obufAt k = s.obufAt k := rfl

/-! ## A read's answer -/

@[simp] theorem State.answer_params (d : BusData) : (s.answer d).params = s.params := rfl
@[simp] theorem State.answer_cmd (d : BusData) : (s.answer d).cmd = s.cmd := rfl
@[simp] theorem State.answer_status (d : BusData) : (s.answer d).status = s.status := rfl
@[simp] theorem State.answer_errIdx (d : BusData) : (s.answer d).errIdx = s.errIdx := rfl
@[simp] theorem State.answer_errVal (d : BusData) : (s.answer d).errVal = s.errVal := rfl
@[simp] theorem State.answer_count (d : BusData) : (s.answer d).count = s.count := rfl
@[simp] theorem State.answer_inLen (d : BusData) : (s.answer d).inLen = s.inLen := rfl
@[simp] theorem State.answer_outLen (d : BusData) : (s.answer d).outLen = s.outLen := rfl
@[simp] theorem State.answer_misCnt (d : BusData) : (s.answer d).misCnt = s.misCnt := rfl
@[simp] theorem State.answer_x (d : BusData) : (s.answer d).x = s.x := rfl
@[simp] theorem State.answer_ibuf (d : BusData) : (s.answer d).ibuf = s.ibuf := rfl
@[simp] theorem State.answer_obuf (d : BusData) : (s.answer d).obuf = s.obuf := rfl
@[simp] theorem State.answer_drawNo (d : BusData) : (s.answer d).drawNo = s.drawNo := rfl
@[simp] theorem State.answer_host (d : BusData) : (s.answer d).host = s.host := rfl
@[simp] theorem State.answer_rdata (d : BusData) : (s.answer d).rdata = some d := rfl
@[simp] theorem State.answer_rawLoAt (d : BusData) (k : Nat) : (s.answer d).rawLoAt k = s.rawLoAt k := rfl
@[simp] theorem State.answer_rawHiAt (d : BusData) (k : Nat) : (s.answer d).rawHiAt k = s.rawHiAt k := rfl
@[simp] theorem State.answer_rawAt (d : BusData) (k : Nat) : (s.answer d).rawAt k = s.rawAt k := rfl
@[simp] theorem State.answer_widthAt (d : BusData) (k : Nat) : (s.answer d).widthAt k = s.widthAt k := rfl
@[simp] theorem State.answer_auxAt (d : BusData) (k : Nat) : (s.answer d).auxAt k = s.auxAt k := rfl
@[simp] theorem State.answer_ibufAt (d : BusData) (k : Nat) : (s.answer d).ibufAt k = s.ibufAt k := rfl
@[simp] theorem State.answer_obufAt (d : BusData) (k : Nat) : (s.answer d).obufAt k = s.obufAt k := rfl

/-! ## Taking an event off the list -/

@[simp] theorem State.afterEvent_params : s.afterEvent.params = s.params := rfl
@[simp] theorem State.afterEvent_cmd : s.afterEvent.cmd = s.cmd := rfl
@[simp] theorem State.afterEvent_status : s.afterEvent.status = s.status := rfl
@[simp] theorem State.afterEvent_errIdx : s.afterEvent.errIdx = s.errIdx := rfl
@[simp] theorem State.afterEvent_errVal : s.afterEvent.errVal = s.errVal := rfl
@[simp] theorem State.afterEvent_count : s.afterEvent.count = s.count := rfl
@[simp] theorem State.afterEvent_inLen : s.afterEvent.inLen = s.inLen := rfl
@[simp] theorem State.afterEvent_outLen : s.afterEvent.outLen = s.outLen := rfl
@[simp] theorem State.afterEvent_misCnt : s.afterEvent.misCnt = s.misCnt := rfl
@[simp] theorem State.afterEvent_x : s.afterEvent.x = s.x := rfl
@[simp] theorem State.afterEvent_ibuf : s.afterEvent.ibuf = s.ibuf := rfl
@[simp] theorem State.afterEvent_obuf : s.afterEvent.obuf = s.obuf := rfl
@[simp] theorem State.afterEvent_drawNo : s.afterEvent.drawNo = s.drawNo := rfl
@[simp] theorem State.afterEvent_host : s.afterEvent.host = s.host.tail := rfl
@[simp] theorem State.afterEvent_rdata : s.afterEvent.rdata = none := rfl
@[simp] theorem State.afterEvent_rawLoAt (k : Nat) : s.afterEvent.rawLoAt k = s.rawLoAt k := rfl
@[simp] theorem State.afterEvent_rawHiAt (k : Nat) : s.afterEvent.rawHiAt k = s.rawHiAt k := rfl
@[simp] theorem State.afterEvent_rawAt (k : Nat) : s.afterEvent.rawAt k = s.rawAt k := rfl
@[simp] theorem State.afterEvent_widthAt (k : Nat) : s.afterEvent.widthAt k = s.widthAt k := rfl
@[simp] theorem State.afterEvent_auxAt (k : Nat) : s.afterEvent.auxAt k = s.auxAt k := rfl
@[simp] theorem State.afterEvent_ibufAt (k : Nat) : s.afterEvent.ibufAt k = s.ibufAt k := rfl
@[simp] theorem State.afterEvent_obufAt (k : Nat) : s.afterEvent.obufAt k = s.obufAt k := rfl

/-! ## A reset -/

@[simp] theorem State.resetBlock_params : s.resetBlock.params = s.params := rfl
@[simp] theorem State.resetBlock_host : s.resetBlock.host = s.host := rfl
@[simp] theorem State.resetBlock_drawNo : s.resetBlock.drawNo = s.drawNo + 1 := rfl
@[simp] theorem State.resetBlock_status : s.resetBlock.status = 0 := rfl

/-! ## Loading an instruction -/

@[simp] theorem State.withFetchWord_host (n w : Nat) :
    (s.withFetchWord n w).host = .writeWord 0x0000C#19 (BitVec.ofNat 32 (w % 2 ^ n)) :: s.host := rfl
@[simp] theorem State.withFetchWord_params (n w : Nat) : (s.withFetchWord n w).params = s.params := rfl

/-- A state is known by its fields. -/
theorem State.ext {s t : State} (h0 : s.params = t.params) (h1 : s.cmd = t.cmd) (h2 : s.status = t.status)
    (h3 : s.errIdx = t.errIdx) (h4 : s.errVal = t.errVal) (h5 : s.count = t.count) (h6 : s.inLen = t.inLen)
    (h7 : s.outLen = t.outLen) (h8 : s.misCnt = t.misCnt) (h9 : s.x = t.x) (h10 : s.ibuf = t.ibuf)
    (h11 : s.obuf = t.obuf) (h12 : s.drawNo = t.drawNo) (h13 : s.host = t.host) (h14 : s.rdata = t.rdata) : s = t := by
  cases s; cases t; simp_all

end Sys2Proof.Machine
end

