-- ==== Sys2Proof/Laws/Commands.lean ====
section
/-! SUPPORT. One specification lemma for each operation the commands share: how a command ends, which check fails first, what an
encode and a decode store. -/

namespace Sys2Proof.Machine

/-! ## How a command ends (R300 to R302) -/

@[simp] theorem command_some (e : CmdError) (f : State → State) (s : State) : command (some e) f s = .next (s.raise e) := rfl

@[simp] theorem command_none (f : State → State) (s : State) : command none f s = .next (f s).done := rfl

/-- Everything a command can come to. -/
theorem command_cases {error : Option CmdError} {f : State → State} {s t : State} (h : command error f s = .next t) :
    (∃ e, error = some e ∧ t = s.raise e) ∨ (error = none ∧ t = (f s).done) := by
  cases error with
  | none => exact .inr ⟨rfl, by simpa using h.symm⟩
  | some e => exact .inl ⟨e, rfl, by simpa using h.symm⟩

theorem errorStatus_eq (c : ErrCode) : errorStatus c = 0x00000103#32 ||| BitVec.ofNat 32 (c.code.toNat * 16) := by
  cases c <;> decide

/-- An error, in the terms of the claims. -/
theorem raise_errorAt (s : State) (c : ErrCode) (k : Nat) (v : BitVec 64) :
    s.raise (errorAt c k v) = s.failed c.code.toNat k v := by
  simp only [State.raise, errorAt, State.failed, errorStatus_eq]

@[simp] theorem statusErr_errorStatus (c : ErrCode) : statusErr (errorStatus c) = true := by cases c <;> decide
@[simp] theorem statusDone_errorStatus (c : ErrCode) : statusDone (errorStatus c) = true := by cases c <;> decide
@[simp] theorem statusSticky_errorStatus (c : ErrCode) : statusSticky (errorStatus c) = true := by cases c <;> decide
@[simp] theorem statusChkmis_errorStatus (c : ErrCode) : statusChkmis (errorStatus c) = false := by cases c <;> decide
@[simp] theorem statusEcode_errorStatus (c : ErrCode) : statusEcode (errorStatus c) = c.code := by cases c <;> decide
@[simp] theorem statusErr_successStatus (m k : Bool) : statusErr (successStatus m k) = false := by
  cases m <;> cases k <;> decide
@[simp] theorem statusDone_successStatus (m k : Bool) : statusDone (successStatus m k) = true := by
  cases m <;> cases k <;> decide
@[simp] theorem statusSticky_successStatus (m k : Bool) : statusSticky (successStatus m k) = k := by
  cases m <;> cases k <;> decide
@[simp] theorem statusChkmis_successStatus (m k : Bool) : statusChkmis (successStatus m k) = m := by
  cases m <;> cases k <;> decide
@[simp] theorem statusEcode_successStatus (m k : Bool) : statusEcode (successStatus m k) = 0 := by
  cases m <;> cases k <;> decide
@[simp] theorem statusSticky_clearSticky (st : Word) : statusSticky (clearSticky st) = false := by
  have e : clearSticky st = st &&& ~~~(256#32) := rfl
  rw [e, statusSticky, BitVec.getLsbD_and]
  have : (~~~(256#32)).getLsbD 8 = false := by decide
  rw [this, Bool.and_false]

/-- The STICKY bit alone, as a word. -/
theorem sticky_word (st : Word) : st &&& 0x100#32 = if statusSticky st then 0x100#32 else 0#32 := by
  apply BitVec.eq_of_getLsbD_eq
  intro i hi
  rw [BitVec.getLsbD_and]
  by_cases h : i = 8
  · subst h
    have : (0x100#32).getLsbD 8 = true := by decide
    rw [this, Bool.and_true, statusSticky]
    cases st.getLsbD 8 <;> decide
  · have e : ∀ j < 32, j ≠ 8 → (0x100#32).getLsbD j = false := by decide
    rw [e i hi h, Bool.and_false]
    split
    · exact (e i hi h).symm
    · simp

/-- What `done()` leaves, in the terms of the claims (R301). -/
theorem done_status (s : State) :
    s.done.status = 0x00000001#32 ||| (if s.misCnt = 0 then 0#32 else 0x8#32) ||| (s.status &&& 0x100#32) := by
  rw [sticky_word, State.done_status]
  by_cases h : s.misCnt = 0
  · rw [h]; cases statusSticky s.status <;> decide
  · rw [show (s.misCnt != 0) = true by simpa using h, if_neg h]; cases statusSticky s.status <;> decide

/-! ## Which check fails first (R304 to R306) -/

theorem checkCapacity_of_le {sel q c : Nat} (h : q ≤ c) : checkCapacity sel q c = none := if_pos h

theorem checkCapacity_of_lt {sel q c : Nat} (h : c < q) :
    checkCapacity sel q c = some (errorAt .capacity sel (BitVec.ofNat 64 q)) := if_neg (by omega)

theorem checkCapacity_eq_none {sel q c : Nat} : checkCapacity sel q c = none ↔ q ≤ c := by
  unfold checkCapacity; split <;> simp_all

theorem checkCapacity_eq_some {sel q c : Nat} {e : CmdError} :
    checkCapacity sel q c = some e ↔ c < q ∧ e = errorAt .capacity sel (BitVec.ofNat 64 q) := by
  unfold checkCapacity; split <;> simp_all [eq_comm]

theorem firstError_eq_none {n : Nat} {check : Nat → Option CmdError} :
    firstError n check = none ↔ ∀ k < n, check k = none := by
  simp [firstError, List.findSome?_eq_none_iff]

theorem firstError_congr {n : Nat} {f g : Nat → Option CmdError} (h : ∀ k < n, f k = g k) : firstError n f = firstError n g := by
  induction n with
  | zero => rfl
  | succ n ih =>
    have e := ih fun k hk => h k (by omega)
    simp only [firstError] at e ⊢
    rw [List.range_succ, List.findSome?_append, List.findSome?_append, e]
    simp [h n (by omega)]

/-- The first failing index decides. -/
theorem firstError_of_first {n k : Nat} {check : Nat → Option CmdError} {e : CmdError} (hk : k < n)
    (h : check k = some e) (hj : ∀ j < k, check j = none) : firstError n check = some e := by
  obtain ⟨m, rfl⟩ : ∃ m, n = k + 1 + m := ⟨n - (k + 1), by omega⟩
  rw [firstError, List.range_add, List.findSome?_append, List.range_succ, List.findSome?_append]
  have : (List.range k).findSome? check = none := by simpa [List.findSome?_eq_none_iff] using hj
  simp [this, h]

theorem exists_of_firstError {n : Nat} {check : Nat → Option CmdError} {e : CmdError} (h : firstError n check = some e) :
    ∃ k < n, check k = some e ∧ ∀ j < k, check j = none := by
  induction n with
  | zero => simp [firstError] at h
  | succ n ih =>
    rw [firstError, List.range_succ, List.findSome?_append] at h
    change (firstError n check).or _ = _ at h
    cases hf : firstError n check with
    | some d =>
      obtain ⟨k, hk, h1, h2⟩ := ih (by rw [hf] at h ⊢; simpa using h)
      exact ⟨k, by omega, h1, h2⟩
    | none =>
      rw [hf] at h
      refine ⟨n, by omega, by simpa using h, fun j hj => firstError_eq_none.1 hf j hj⟩

/-- Checking the elements of a list in order is checking its indexes in order. -/
theorem findSome_zipIdx (l : List Nat) (f : Nat → Nat → Option CmdError) :
    (l.zipIdx.findSome? fun u => f u.2 u.1) = firstError l.length fun k => f k (l.getD k 0) := by
  induction l using List.reverseRecOn with
  | nil => rfl
  | append_singleton l x ih =>
    rw [List.zipIdx_append, List.findSome?_append, ih, List.length_append, List.length_singleton]
    have e : firstError l.length (fun k => f k (l.getD k 0)) = firstError l.length (fun k => f k ((l ++ [x]).getD k 0)) :=
      firstError_congr fun k hk => by rw [List.getD_append _ _ _ _ hk]
    rw [e]
    simp [firstError, List.range_succ]

/-! ## What an encode stores (R150, R151, R155, R193) -/

theorem obufAt_storeEncode (s : State) (L : Nat) (out : List Byte) (j : Nat) :
    (s.storeEncode L out).obufAt j = if j < out.length then out.getD j 0 else s.obufAt j := by
  simp only [State.obufAt, State.storeEncode, Sparse.find_putAll]
  by_cases h : j < out.length <;> simp [h]

/-- A buffer that holds the framed fields holds the chunk of R150 and R151, bit by bit. -/
theorem chunkBits_of_frame {n : Nat} {w r : Nat → Nat} {sb : Bool} {byteAt : Nat → Byte}
    (h : ∀ j < ceilDiv (bitOffset w sb n) 8,
      byteAt j = (frame (serialize ((List.range n).map fun k => (w k, r k)) sb)).getD j 0) :
    ChunkBits n w r sb (bitAt byteAt) := by
  have hlen := length_serialize_range w r sb n
  have hT := frontBits_add_backBits (bitOffset w sb n)
  have key : ∀ p, p < 8 * ceilDiv (bitOffset w sb n) 8 → bitAt byteAt p =
      if p < frontBits (bitOffset w sb n) then false
      else (serialize ((List.range n).map fun k => (w k, r k)) sb).getD (p - frontBits (bitOffset w sb n)) false := by
    intro p hp
    have := bitAt_frame (serialize ((List.range n).map fun k => (w k, r k)) sb) p
    rw [hlen] at this
    rw [← this, bitAt, bitAt, h (p / 8) (by omega)]
  change (∀ p < frontBits _, _) ∧ (∀ i < n, ∀ b < w i, bitAt byteAt (frontBits _ + _ + _) = _) ∧
    (sb = true → ∀ i < n, bitAt byteAt (frontBits _ + _ + _) = true) ∧ (∀ p, frontBits _ + _ ≤ p → p < 8 * ceilDiv _ 8 → _)
  refine ⟨fun p hp => ?_, fun i hi b hb => ?_, fun hs i hi => ?_, fun p hp hq => ?_⟩
  · rw [key p (by omega), if_pos hp]
  · have := bitOffset_mono (w := w) (sb := sb) hi
    rw [key _ (by omega), if_neg (by omega), Nat.add_assoc, Nat.add_sub_cancel_left, getD_serialize_value w r sb hi hb]
  · subst hs
    have := bitOffset_mono (w := w) (sb := true) hi
    simp at this
    rw [key _ (by omega), if_neg (by omega), Nat.add_assoc, Nat.add_sub_cancel_left, getD_serialize_stop w r hi]
  · rw [key _ hq, if_neg (by omega)]
    simp [List.getD_eq_getElem?_getD, List.getElem?_eq_none (show
      (serialize ((List.range n).map fun k => (w k, r k)) sb).length ≤ p - frontBits (bitOffset w sb n) by omega)]

/-! ## What a decode reads and stores (R152, R153, R156, R194) -/

@[simp] theorem length_inputBytes (s : State) (L : Nat) : (s.inputBytes L).length = L := by simp [State.inputBytes]

@[simp] theorem length_inputFields (w : Nat) (sb : Bool) (s : State) :
    (inputFields w sb s).length = decodeCount s.inLen.toNat w sb := by
  rw [inputFields, length_unframe, length_inputBytes]; rfl

@[simp] theorem length_inputValues (w : Nat) (sb : Bool) (s : State) :
    (inputValues w sb s).length = decodeCount s.inLen.toNat w sb := by simp [inputValues]

theorem getD_inputBits (s : State) {L p : Nat} (hp : p < 8 * L) :
    (bytesToBits (s.inputBytes L)).getD p false = bitAt s.ibufAt p := by
  rw [getD_bytesToBits]
  have : p / 8 < L := by omega
  simp [bitAt, State.inputBytes, this]

/-- A number spelled by `w` consecutive bits, as the claims write it. -/
theorem valOf_take_drop (bits : List Bool) (a w : Nat) (h : a + w ≤ bits.length) :
    valOf ((bits.drop a).take w) = (List.range w).foldl (fun v j => 2 * v + (bits.getD (a + j) false).toNat) 0 := by
  induction w with
  | zero => simp [valOf]
  | succ w ih =>
    have hlt : a + w < bits.length := by omega
    rw [List.range_succ, List.foldl_append, ← ih (by omega), List.take_add_one]
    have : (bits.drop a)[w]? = some (bits[a + w]) := by simp [List.getElem?_drop, hlt]
    rw [this]
    simp [valOf_append_singleton, List.getD_eq_getElem?_getD, hlt]

theorem decodeCount_mul_le (L w : Nat) (sb : Bool) : decodeCount L w sb * (w + sb.toNat) ≤ 8 * L :=
  Nat.div_mul_le_self _ _

theorem fieldStart_add_le {s : State} {w : Nat} {sb : Bool} {k : Nat} (hk : k < decodeCount s.inLen.toNat w sb) :
    fieldStart s w sb k + (w + sb.toNat) ≤ 8 * s.inLen.toNat := by
  have h1 := decodeCount_mul_le s.inLen.toNat w sb
  have h2 : (k + 1) * (w + sb.toNat) ≤ decodeCount s.inLen.toNat w sb * (w + sb.toNat) :=
    Nat.mul_le_mul_right _ hk
  rw [Nat.succ_mul] at h2
  unfold fieldStart
  omega

theorem foldl_bits_congr {f g : Nat → Bool} {n : Nat} (h : ∀ j < n, f j = g j) :
    (List.range n).foldl (fun v j => 2 * v + (f j).toNat) 0 = (List.range n).foldl (fun v j => 2 * v + (g j).toNat) 0 := by
  induction n with
  | zero => rfl
  | succ n ih => simp only [List.range_succ, List.foldl_append, List.foldl_cons, List.foldl_nil]; rw [ih fun j hj => h j (by omega), h n (by omega)]

theorem getD_inputFields_bits {s : State} {w : Nat} {sb : Bool} {k : Nat} (hk : k < decodeCount s.inLen.toNat w sb) :
    (inputFields w sb s).getD k 0 =
      (List.range (w + sb.toNat)).foldl (fun v j => 2 * v + (bitAt s.ibufAt (fieldStart s w sb k + j)).toNat) 0 := by
  have hle := fieldStart_add_le hk
  have hl : k < (inputFields w sb s).length := by simpa using hk
  rw [List.getD_eq_getElem _ _ hl]
  simp only [inputFields, unframe]
  rw [getElem_takeFields, List.drop_drop, valOf_take_drop]
  · apply foldl_bits_congr
    intro j hj
    have e : skipBits (s.inputBytes s.inLen.toNat).length w sb + k * (w + sb.toNat) = fieldStart s w sb k := by
      simp [skipBits, fieldStart, fieldCount, decodeCount]
    rw [e, getD_inputBits s (by omega)]
  · rw [length_bytesToBits]
    simpa [skipBits, fieldStart, fieldCount, decodeCount] using hle

/-- A field without stop bits is its payload. -/
theorem getD_inputFields_false {s : State} {w k : Nat} (hk : k < decodeCount s.inLen.toNat w false) :
    (inputFields w false s).getD k 0 = payload s w false k := by rw [getD_inputFields_bits hk]; rfl

/-- A field with a stop bit is its payload, shifted, and the stop bit. -/
theorem getD_inputFields_true {s : State} {w k : Nat} (hk : k < decodeCount s.inLen.toNat w true) :
    (inputFields w true s).getD k 0 = 2 * payload s w true k + (stopBit s w k).toNat := by
  rw [getD_inputFields_bits hk]
  simp [List.range_succ, payload, stopBit]

/-- The value of a field is its payload. -/
theorem getD_inputValues {s : State} {w : Nat} {sb : Bool} {k : Nat} (hk : k < decodeCount s.inLen.toNat w sb) :
    (inputValues w sb s).getD k 0 = payload s w sb k := by
  have hl : k < (inputFields w sb s).length := by simpa using hk
  have : (inputValues w sb s).getD k 0 = stripStop sb ((inputFields w sb s).getD k 0) := by
    rw [List.getD_eq_getElem _ _ hl, List.getD_eq_getElem _ _ (by simpa using hk)]
    simp [inputValues]
  rw [this]
  cases sb
  · rw [getD_inputFields_false hk]; rfl
  · rw [getD_inputFields_true hk]
    have := Bool.toNat_lt (stopBit s w k)
    simp only [stripStop, if_true]; omega

theorem foldl_bits_lt (f : Nat → Bool) (n : Nat) :
    (List.range n).foldl (fun v j => 2 * v + (f j).toNat) 0 < 2 ^ n := by
  induction n with
  | zero => simp
  | succ n ih =>
    have := Bool.toNat_lt (f n)
    simp only [List.range_succ, List.foldl_append, List.foldl_cons, List.foldl_nil, Nat.pow_succ]; omega

/-- A payload has `w` bits. -/
theorem payload_lt (s : State) (w : Nat) (sb : Bool) (k : Nat) : payload s w sb k < 2 ^ w := foldl_bits_lt _ w

/-- The stop-bit check of a decode, field by field. -/
theorem checkStop_field {s : State} {w : Nat} {sb : Bool} {k : Nat} (hk : k < decodeCount s.inLen.toNat w sb) :
    checkStop sb k ((inputFields w sb s).getD k 0) =
      if sb = true ∧ stopBit s w k = false then some (errorAt .framing k (BitVec.ofNat 64 (payload s w sb k))) else none := by
  cases sb
  · simp [checkStop]
  · rw [getD_inputFields_true hk]
    cases h : stopBit s w k
    · simp [checkStop]
    · have : (2 * payload s w true k + 1) % 2 = 1 := by omega
      simp [checkStop, this]

/-- The checks of a decode from its third on, over positions. -/
theorem decodeError_eq (w : Nat) (sb : Bool) (accept : Nat → Nat → Option CmdError) (s : State) :
    decodeError w sb accept s =
      (checkCapacity 2 s.inLen.toNat s.params.nb).or
        ((checkCapacity 3 (decodeCount s.inLen.toNat w sb) s.params.nv).or
          ((firstError (decodeCount s.inLen.toNat w sb) fun k =>
              if sb = true ∧ stopBit s w k = false then some (errorAt .framing k (BitVec.ofNat 64 (payload s w sb k)))
              else none).or
            (firstError (decodeCount s.inLen.toNat w sb) fun k => accept k (payload s w sb k)))) := by
  have e1 := findSome_zipIdx (inputFields w sb s) (checkStop sb)
  have e2 := findSome_zipIdx (inputValues w sb s) accept
  rw [decodeError, e1, e2, length_inputFields, length_inputValues]
  congr 1
  congr 1
  congr 1
  · exact firstError_congr fun k hk => checkStop_field hk
  · exact firstError_congr fun k hk => by rw [getD_inputValues hk]

/-- The entries after a decode of the values `vals` with the annotations `auxs`, one for each. -/
theorem storeDecode_entries (s : State) (w : Nat) {vals : List (BitVec 64)} {auxs : List (BitVec 5)} (mis k : Nat)
    (hl : auxs.length = vals.length) :
    (s.storeDecode w vals auxs mis).rawAt k = (if k < vals.length then vals.getD k 0 else s.rawAt k) ∧
    (s.storeDecode w vals auxs mis).widthAt k = (if k < vals.length then BitVec.ofNat 8 w else s.widthAt k) ∧
    (s.storeDecode w vals auxs mis).auxAt k = (if k < vals.length then auxs.getD k 0 else s.auxAt k) := by
  have hcat : ∀ v : BitVec 64, v.extractLsb' 32 32 ++ v.setWidth 32 = v := by
    intro v
    apply BitVec.eq_of_toNat_eq
    rw [BitVec.toNat_append, BitVec.extractLsb'_toNat, BitVec.toNat_setWidth, Nat.shiftRight_eq_div_pow,
      ← Nat.shiftLeft_add_eq_or_of_lt (by omega), Nat.shiftLeft_eq]
    omega
  simp only [State.rawAt, State.rawLoAt, State.rawHiAt, State.widthAt, State.auxAt, State.storeDecode, Sparse.find_putAll,
    List.length_map, hl]
  by_cases h : k < vals.length
  · simp only [h, dite_true, if_true, Option.getD_some, List.getElem_map]
    refine ⟨?_, trivial, ?_⟩
    · rw [hcat, List.getD_eq_getElem _ _ h]
    · rw [List.getD_eq_getElem _ _ (by omega)]
  · simp [h]

/-- AUX after a checksum computation. -/
theorem storeAux_auxAt (s : State) (auxs : List (BitVec 5)) (k : Nat) :
    (s.storeAux auxs).auxAt k = if k < auxs.length then auxs.getD k 0 else s.auxAt k := by
  simp only [State.auxAt, State.storeAux, Sparse.find_putAll]
  by_cases h : k < auxs.length <;> simp [h]

end Sys2Proof.Machine
end

