-- ==== Sys2Proof/Laws/Exec.lean ====
section
/-! SUPPORT. Every command as one shape: its error, if it has one, and its effect otherwise; and what all commands have in
common. -/

namespace Sys2Proof.Machine

/-- The error a command ends in, if it does. -/
def execError (i : Instr) (s : State) : Option CmdError :=
  match i with
  | .benc sb => encodeError (checkEntry s) (entryBytes sb s) s
  | .bdec sb w => (checkWidth w).or (decodeError w sb (fun _ _ => none) s)
  | .encHs sb => typedEncodeError .handshake sb s
  | .encVer sb => typedEncodeError .version sb s
  | .encNum sb => typedEncodeError .twelveBitNumber sb s
  | .encChr sb => typedEncodeError .character sb s
  | .encRs sb => typedEncodeError .receiveStatus sb s
  | .decHs sb => decodeError (wireWidth .handshake) sb (checkDecoded .handshake) s
  | .decVer sb => decodeError (wireWidth .version) sb (checkDecoded .version) s
  | .decNum sb => decodeError (wireWidth .twelveBitNumber) sb (checkDecoded .twelveBitNumber) s
  | .decChr sb => decodeError (wireWidth .character) sb (checkDecoded .character) s
  | .decRs sb => decodeError (wireWidth .receiveStatus) sb (checkDecoded .receiveStatus) s
  | .chksum => chksumError s
  | .clr => none

/-- The effect of a command that has no error. -/
def execEffect (i : Instr) (s : State) : State :=
  match i with
  | .benc sb => encodeFields (entryFields s) sb s
  | .bdec sb w => decodeValues w sb s
  | .encHs sb => encodeFields (typedFields .handshake s) sb s
  | .encVer sb => encodeFields (typedFields .version s) sb s
  | .encNum sb => encodeFields (typedFields .twelveBitNumber s) sb s
  | .encChr sb =>
    (encodeFields (wireText (operandText s)) sb s).storeAux ((streamChecksum (operandText s)).map (auxOf false))
  | .encRs sb => encodeFields (typedFields .receiveStatus s) sb s
  | .decHs sb => decodeValues (wireWidth .handshake) sb s
  | .decVer sb => decodeValues (wireWidth .version) sb s
  | .decNum sb => decodeValues (wireWidth .twelveBitNumber) sb s
  | .decChr sb => storeText ((inputValues (wireWidth .character) sb s).map (BitVec.ofNat 12)) s
  | .decRs sb => decodeValues (wireWidth .receiveStatus) sb s
  | .chksum => { s.storeAux ((streamChecksum (operandText s)).map (auxOf false)) with misCnt := 0 }
  | .clr => { s with misCnt := 0, status := clearSticky s.status }

/-- Every command is its error or its effect. -/
theorem exec_eq (i : Instr) (s : State) : exec i s = command (execError i s) (execEffect i) s := by cases i <;> rfl

/-- Everything a command can come to. -/
theorem exec_cases {i : Instr} {s t : State} (h : exec i s = .next t) :
    (∃ e, execError i s = some e ∧ t = s.raise e) ∨ (execError i s = none ∧ t = (execEffect i s).done) := by
  rw [exec_eq] at h; exact command_cases h

/-- A command without an error has its effect. -/
theorem exec_of_ok {i : Instr} {s : State} (h : execError i s = none) : exec i s = .next (execEffect i s).done := by
  rw [exec_eq, h]; rfl

/-- A command with an error reports it. -/
theorem exec_of_error {i : Instr} {s : State} {e : CmdError} (h : execError i s = some e) : exec i s = .next (s.raise e) := by
  rw [exec_eq, h]; rfl

/-- What the effects of all commands leave alone, and what STATUS they leave `done()`. -/
theorem execEffect_frame (i : Instr) (s : State) :
    (execEffect i s).params = s.params ∧ (execEffect i s).cmd = s.cmd ∧ (execEffect i s).inLen = s.inLen ∧
    (execEffect i s).ibuf = s.ibuf ∧ (execEffect i s).drawNo = s.drawNo ∧ (execEffect i s).host = s.host ∧
    (execEffect i s).rdata = s.rdata ∧ (execEffect i s).status = (if i = .clr then clearSticky s.status else s.status) := by
  cases i <;> exact ⟨rfl, rfl, rfl, rfl, rfl, rfl, rfl, rfl⟩

/-- The operand check of a type fails with one of two codes. -/
theorem checkOperand_code {ty : ProtoType} {k : Nat} {v : BitVec 64} {e : CmdError} (h : checkOperand ty k v = some e) :
    (ty = .handshake ∨ ty = .receiveStatus) ∧ e.code = .enum ∨ (ty = .version ∨ ty = .character) ∧ e.code = .value := by
  cases ty <;> simp only [checkOperand] at h
  all_goals first
    | (split at h <;> simp at h; subst h; simp [errorAt])
    | simp at h

/-- The acceptance check of a type fails with `E_ENUM`. -/
theorem checkDecoded_code {ty : ProtoType} {k u : Nat} {e : CmdError} (h : checkDecoded ty k u = some e) :
    (ty = .handshake ∨ ty = .receiveStatus) ∧ e.code = .enum := by
  cases ty <;> simp only [checkDecoded] at h
  all_goals first
    | (split at h <;> simp at h; subst h; simp [errorAt])
    | simp at h

theorem checkEntry_code {s : State} {k : Nat} {e : CmdError} (h : checkEntry s k = some e) :
    e.code = .width ∨ e.code = .value := by
  unfold checkEntry at h
  split at h
  · simp at h; subst h; simp [errorAt]
  · split at h <;> simp at h; subst h; simp [errorAt]

/-- The error of an encode is a capacity's or an entry's. -/
theorem encodeError_code {check : Nat → Option CmdError} {L : Nat} {s : State} {e : CmdError}
    (h : encodeError check L s = some e) : e.code = .capacity ∨ ∃ k, check k = some e := by
  rw [encodeError, Option.or_eq_some_iff, Option.or_eq_some_iff] at h
  rcases h with h | ⟨-, h | ⟨-, h⟩⟩
  · exact .inl (by rw [(checkCapacity_eq_some.1 h).2]; rfl)
  · obtain ⟨k, -, hk, -⟩ := exists_of_firstError h
    exact .inr ⟨k, hk⟩
  · exact .inl (by rw [(checkCapacity_eq_some.1 h).2]; rfl)

/-- The error of a decode is a capacity's, a stop bit's or a value's. -/
theorem decodeError_code {w : Nat} {sb : Bool} {accept : Nat → Nat → Option CmdError} {s : State} {e : CmdError}
    (h : decodeError w sb accept s = some e) : e.code = .capacity ∨ e.code = .framing ∨ ∃ k u, accept k u = some e := by
  rw [decodeError_eq, Option.or_eq_some_iff, Option.or_eq_some_iff, Option.or_eq_some_iff] at h
  rcases h with h | ⟨-, h | ⟨-, h | ⟨-, h⟩⟩⟩
  · exact .inl (by rw [(checkCapacity_eq_some.1 h).2]; rfl)
  · exact .inl (by rw [(checkCapacity_eq_some.1 h).2]; rfl)
  · obtain ⟨k, -, hk, -⟩ := exists_of_firstError h
    split at hk <;> simp at hk
    exact .inr (.inl (by rw [← hk]; rfl))
  · obtain ⟨k, -, hk, -⟩ := exists_of_firstError h
    exact .inr (.inr ⟨k, _, hk⟩)

/-- A command ends only in the errors the table of R303 gives it. -/
theorem execError_code {i : Instr} {s : State} {e : CmdError} (h : execError i s = some e) : e.code.code.toNat ∈ raisable i := by
  have cap : ErrCode.capacity.code.toNat = 6 := rfl
  have fra : ErrCode.framing.code.toNat = 5 := rfl
  have enu : ErrCode.enum.code.toNat = 4 := rfl
  have val : ErrCode.value.code.toNat = 3 := rfl
  have wid : ErrCode.width.code.toNat = 2 := rfl
  have typed : ∀ ty sb, typedEncodeError ty sb s = some e → e.code = .capacity ∨
      (ty = .handshake ∨ ty = .receiveStatus) ∧ e.code = .enum ∨ (ty = .version ∨ ty = .character) ∧ e.code = .value := by
    intro ty sb h
    rcases encodeError_code h with h | ⟨k, hk⟩
    · exact .inl h
    · exact .inr (checkOperand_code hk)
  have dec : ∀ ty sb, decodeError (wireWidth ty) sb (checkDecoded ty) s = some e → e.code = .capacity ∨ e.code = .framing ∨
      (ty = .handshake ∨ ty = .receiveStatus) ∧ e.code = .enum := by
    intro ty sb h
    rcases decodeError_code h with h | h | ⟨k, u, hk⟩
    · exact .inl h
    · exact .inr (.inl h)
    · exact .inr (.inr (checkDecoded_code hk))
  cases i with
  | benc sb =>
    rcases encodeError_code h with h | ⟨k, hk⟩
    · simp [raisable, h, cap]
    · rcases checkEntry_code hk with h | h <;> simp [raisable, h, wid, val]
  | bdec sb w =>
    rcases Option.or_eq_some_iff.1 h with h | ⟨-, h⟩
    · unfold checkWidth at h
      split at h <;> simp at h
      subst h; simp [raisable, errorAt, wid]
    · rcases decodeError_code h with h | h | ⟨k, u, hk⟩
      · simp [raisable, h, cap]
      · simp [raisable, h, fra]
      · simp at hk
  | chksum =>
    rcases Option.or_eq_some_iff.1 h with h | ⟨-, h⟩
    · rw [(checkCapacity_eq_some.1 h).2]; simp [raisable, errorAt, cap]
    · obtain ⟨k, -, hk, -⟩ := exists_of_firstError h
      rcases checkOperand_code hk with ⟨h | h, -⟩ | ⟨-, h⟩
      · simp at h
      · simp at h
      · simp [raisable, h, val]
  | clr => simp [execError] at h
  | encHs sb => rcases typed _ _ h with h | ⟨-, h⟩ | ⟨h | h, -⟩ <;> simp_all [raisable]
  | encVer sb => rcases typed _ _ h with h | ⟨h | h, -⟩ | ⟨-, h⟩ <;> simp_all [raisable]
  | encNum sb => rcases typed _ _ h with h | ⟨h | h, -⟩ | ⟨h | h, -⟩ <;> simp_all [raisable]
  | encChr sb => rcases typed _ _ h with h | ⟨h | h, -⟩ | ⟨-, h⟩ <;> simp_all [raisable]
  | encRs sb => rcases typed _ _ h with h | ⟨-, h⟩ | ⟨h | h, -⟩ <;> simp_all [raisable]
  | decHs sb => rcases dec _ _ h with h | h | ⟨-, h⟩ <;> simp_all [raisable]
  | decVer sb => rcases dec _ _ h with h | h | ⟨h | h, -⟩ <;> simp_all [raisable]
  | decNum sb => rcases dec _ _ h with h | h | ⟨h | h, -⟩ <;> simp_all [raisable]
  | decChr sb => rcases dec _ _ h with h | h | ⟨h | h, -⟩ <;> simp_all [raisable]
  | decRs sb => rcases dec _ _ h with h | h | ⟨-, h⟩ <;> simp_all [raisable]

/-! ## Illegal words -/

/-- An illegal word ends in `E_CMD` with the word (R271). -/
theorem runWord_of_illegal {c : Word} (s : State) (h : (decode c).toOption = none) :
    runWord c s = .next (s.raise (errorAt .cmd 0 (c.setWidth 64))) := by
  unfold runWord
  cases hd : decode c with
  | ok i => rw [hd] at h; simp [Except.toOption] at h
  | error e => rfl

/-- Everything a command word can come to. -/
theorem runWord_cases {c : Word} {s t : State} (h : runWord c s = .next t) :
    (∃ i, decode c = .ok i ∧ exec i s = .next t) ∨
    ((decode c).toOption = none ∧ t = s.raise (errorAt .cmd 0 (c.setWidth 64))) := by
  cases hd : decode c with
  | ok i => exact .inl ⟨i, rfl, by rw [runWord, hd] at h; exact h⟩
  | error e =>
    have hn : (decode c).toOption = none := by rw [hd]; rfl
    rw [runWord_of_illegal s hn] at h
    exact .inr ⟨rfl, by simpa using h.symm⟩

end Sys2Proof.Machine
end

