-- ==== Sys2Proof/Laws/PerInstr.lean ====
section
/-! SUPPORT. Facts about every command as syntax, one lemma for each constructor. -/

namespace Sys2Proof.Laws.EncodeReserved

/-- R111, R118: the word of a well-formed command has every reserved bit 0: c[7:5], c[15:11] and c[31:24]. -/
def Statement (i : Instr) : Prop := i.wf = true → encode i &&& 0xFF00F8E0#32 = 0

theorem benc (s : Bool) : Statement (.benc s) := by intro _; cases s <;> decide

theorem encHs (s : Bool) : Statement (.encHs s) := by intro _; cases s <;> decide

theorem encVer (s : Bool) : Statement (.encVer s) := by intro _; cases s <;> decide

theorem encNum (s : Bool) : Statement (.encNum s) := by intro _; cases s <;> decide

theorem encChr (s : Bool) : Statement (.encChr s) := by intro _; cases s <;> decide

theorem encRs (s : Bool) : Statement (.encRs s) := by intro _; cases s <;> decide

theorem decHs (s : Bool) : Statement (.decHs s) := by intro _; cases s <;> decide

theorem decVer (s : Bool) : Statement (.decVer s) := by intro _; cases s <;> decide

theorem decNum (s : Bool) : Statement (.decNum s) := by intro _; cases s <;> decide

theorem decChr (s : Bool) : Statement (.decChr s) := by intro _; cases s <;> decide

theorem decRs (s : Bool) : Statement (.decRs s) := by intro _; cases s <;> decide

theorem bdec (s : Bool) (w : Nat) : Statement (.bdec s w) := by
  intro h
  have hw : w < 256 := by simpa [Instr.wf] using h
  have key : ∀ w : Fin 256, ∀ s : Bool, encode (.bdec s w.val) &&& 0xFF00F8E0#32 = 0 := by decide +kernel
  exact key ⟨w, hw⟩ s

theorem chksum : Statement .chksum := by intro _; decide

theorem clr : Statement .clr := by intro _; decide

end Sys2Proof.Laws.EncodeReserved
end

