-- ==== Sys2Proof/Laws/Rules.lean ====
section
/-! SUPPORT. From the operations' lemmas to the rules of Safety.lean: what puts a command under `EncodeRule` or `DecodeRule`, what
follows from a success under them, and the checksum functions as numbers. -/

namespace Sys2Proof.Machine

/-! ## Encodes -/

/-- The widths of fields given by functions. -/
theorem range_map_fst (w r : Nat → Nat) (n : Nat) : ((List.range n).map fun k => (w k, r k)).map (·.1) = (List.range n).map w := by
  simp [Function.comp_def]

/-- Their bits in all. -/
theorem totalBits_range (w : Nat → Nat) (sb : Bool) (n : Nat) : totalBits ((List.range n).map w) sb = bitOffset w sb n := by
  simp [totalBits, bitOffset, Function.comp_def]

/-- A command that checks and stores as every encode does follows `EncodeRule`. -/
theorem encodeRule_of {i : Instr} {sb : Bool} {s : State} {w r : Nat → Nat} {bad : Nat → Option (Nat × BitVec 64)}
    {entries : State → Prop} {check : Nat → Option CmdError} {L : Nat} {eff : State → State}
    (hx : exec i s = command (encodeError check L s) eff s)
    (hL : L = ceilDiv (bitOffset w sb s.count.toNat) 8)
    (hbad : ∀ k c v, bad k = some (c, v) → ∃ e : ErrCode, e.code.toNat = c ∧ check k = some (errorAt e k v))
    (hok : ∀ k, bad k = none → check k = none)
    (heff : s.count.toNat ≤ s.params.nv → (∀ k < s.count.toNat, bad k = none) →
      ∃ x', eff s = { (s.storeEncode L (frame (serialize ((List.range s.count.toNat).map fun k => (w k, r k)) sb))) with x := x' } ∧
        entries (eff s).done) :
    EncodeRule i sb s w r bad entries := by
  have hL' : (bitOffset w sb s.count.toNat + 7) / 8 = L := hL.symm
  unfold EncodeRule
  simp only [hL']
  refine ⟨fun h => ?_, fun h k hk c v hb hj => ?_, fun h ha hn => ?_, fun h ha hn => ?_⟩
  · rw [hx, encodeError, checkCapacity_of_lt h]; simp [raise_errorAt]; rfl
  · obtain ⟨e, rfl, he⟩ := hbad k c v hb
    rw [hx, encodeError, checkCapacity_of_le h, firstError_of_first hk he fun j hj' => hok j (hj j hj')]
    simp [raise_errorAt]
  · rw [hx, encodeError, checkCapacity_of_le h, firstError_eq_none.2 fun k hk => hok k (ha k hk), checkCapacity_of_lt hn]
    simp [raise_errorAt]; rfl
  · obtain ⟨x', he, hent⟩ := heff h ha
    refine ⟨(eff s).done, ?_, ?_, ?_, ?_, ?_, ?_, hent, ?_, ?_⟩
    · rw [hx, encodeError, checkCapacity_of_le h, firstError_eq_none.2 fun k hk => hok k (ha k hk), checkCapacity_of_le hn]; rfl
    · rw [he]; rfl
    · apply chunkBits_of_frame
      intro j hj
      rw [he]
      have := obufAt_storeEncode s L (frame (serialize ((List.range s.count.toNat).map fun k => (w k, r k)) sb)) j
      rw [length_frame, length_serialize_range, if_pos hj] at this
      rw [← this]; rfl
    · intro j hj
      rw [he]
      have := obufAt_storeEncode s L (frame (serialize ((List.range s.count.toNat).map fun k => (w k, r k)) sb)) j
      rw [length_frame, length_serialize_range, if_neg (by omega)] at this
      rw [← this]; rfl
    · rw [he]; rfl
    · rw [he]; rfl
    · have h1 : (eff s).misCnt = 0 := by rw [he]; rfl
      have h2 : (eff s).status = s.status := by rw [he]; rfl
      refine ⟨?_, rfl, rfl⟩
      rw [done_status, h2]; rfl
    · rw [he]; exact ⟨rfl, rfl, rfl, rfl, rfl, rfl, rfl⟩

/-- An error sets ERR. -/
theorem statusErr_failed (s : State) (c i v) : statusErr (s.failed c i v).status = true := by
  simp only [State.failed, statusErr]
  rw [BitVec.getLsbD_or, show (0x103#32).getLsbD 1 = true from by decide, Bool.true_or]

/-- A success clears ERR. -/
theorem statusErr_of_completed {s t : State} (h : CompletedFrom s t) : statusErr t.status = false := by
  rw [h.1, statusErr, BitVec.getLsbD_or, BitVec.getLsbD_or, BitVec.getLsbD_and]
  have e1 : (1#32).getLsbD 1 = false := by decide
  have e2 : (256#32).getLsbD 1 = false := by decide
  have e3 : (if t.misCnt = 0 then 0#32 else 8#32).getLsbD 1 = false := by split <;> decide
  rw [e1, e2, e3]; simp

/-- What a success says of an encode that follows `EncodeRule`. -/
theorem encode_success {i : Instr} {sb : Bool} {s t : State} {w r bad ent} (h : EncodeRule i sb s w r bad ent)
    (hx : exec i s = .next t) (he : statusErr t.status = false) :
    s.count.toNat ≤ s.params.nv ∧ (∀ k < s.count.toNat, bad k = none) ∧ (bitOffset w sb s.count.toNat + 7) / 8 ≤ s.params.nb ∧
      t.outLen = BitVec.ofNat 32 ((bitOffset w sb s.count.toNat + 7) / 8) ∧ ChunkBits s.count.toNat w r sb (bitAt t.obufAt) ∧ ent t ∧
      t.params = s.params ∧ t.count = s.count := by
  obtain ⟨h1, h2, h3, h4⟩ := h
  have fail : ∀ c idx v, exec i s = .next (s.failed c idx v) → False := by
    intro c idx v hf
    rw [hf] at hx
    injection hx with hx
    rw [← hx, statusErr_failed] at he
    cases he
  by_cases c1 : s.params.nv < s.count.toNat
  · exact (fail _ _ _ (h1 c1)).elim
  by_cases c2 : ∀ k < s.count.toNat, bad k = none
  · by_cases c3 : s.params.nb < (bitOffset w sb s.count.toNat + 7) / 8
    · exact (fail _ _ _ (h3 (by omega) c2 c3)).elim
    · obtain ⟨t', ht', a1, a2, a3, a4, a5, a6, a7, a8⟩ := h4 (by omega) c2 (by omega)
      rw [ht'] at hx; injection hx with hx; subst hx
      exact ⟨by omega, c2, by omega, a1, a2, a6, a8.1, a4⟩
  · exfalso
    have : ∃ k, k < s.count.toNat ∧ bad k ≠ none ∧ ∀ j < k, bad j = none := by
      by_contra hno
      apply c2
      intro k
      induction k using Nat.strong_induction_on with
      | _ k ih =>
        intro hk
        by_contra hb
        exact hno ⟨k, hk, hb, fun j hj => ih j hj (by omega)⟩
    obtain ⟨k, hk, hb, hj⟩ := this
    cases hbk : bad k with
    | none => exact hb hbk
    | some cv => exact fail _ _ _ (h2 (by omega) k hk cv.1 cv.2 hbk hj)

/-! ## Decodes -/

/-- A command that checks and stores as every decode does follows `DecodeRule`. -/
theorem decodeRule_of {i : Instr} {sb : Bool} {s : State} {w : Nat} {accept : Nat → Prop} {entries : State → Prop}
    {acc : Nat → Nat → Option CmdError} {eff : State → State}
    (hx : exec i s = command (decodeError w sb acc s) eff s)
    (hbad : ∀ k u, ¬ accept u → acc k u = some (errorAt .enum k (BitVec.ofNat 64 u)))
    (hok : ∀ k u, accept u → acc k u = none)
    (heff : s.inLen.toNat ≤ s.params.nb → decodeCount s.inLen.toNat w sb ≤ s.params.nv →
      ∃ x' m', eff s = { s with x := x', misCnt := m', count := BitVec.ofNat 32 (decodeCount s.inLen.toNat w sb) } ∧
        entries (eff s).done) :
    DecodeRule i sb s w accept entries := by
  unfold DecodeRule
  rw [decodeError_eq] at hx
  refine ⟨fun h => ?_, fun h hn => ?_, fun h hn hs k hk hb hj => ?_, fun h hn hs k hk hb hj => ?_, fun h hn hs ha => ?_⟩
  · rw [hx, checkCapacity_of_lt h]; simp [raise_errorAt]; rfl
  · rw [hx, checkCapacity_of_le h, checkCapacity_of_lt hn]; simp [raise_errorAt]; rfl
  · rw [hx, checkCapacity_of_le h, checkCapacity_of_le hn,
      firstError_of_first (e := errorAt .framing k (BitVec.ofNat 64 (payload s w sb k))) hk (by simp [hs, hb])
        (fun j hj' => by simp [hj j hj'])]
    simp [raise_errorAt]; rfl
  · have hnone : firstError (decodeCount s.inLen.toNat w sb) (fun k =>
              if sb = true ∧ stopBit s w k = false then some (errorAt .framing k (BitVec.ofNat 64 (payload s w sb k)))
              else none) = none := firstError_eq_none.2 fun k hk => by
        rw [if_neg]; rintro ⟨h1, h2⟩; simp [hs h1 k hk] at h2
    rw [hx, checkCapacity_of_le h, checkCapacity_of_le hn, hnone,
      firstError_of_first (check := fun k => acc k (payload s w sb k)) hk (hbad k _ hb) (fun j hj' => hok j _ (hj j hj'))]
    simp [raise_errorAt]; rfl
  · have hnone : firstError (decodeCount s.inLen.toNat w sb) (fun k =>
              if sb = true ∧ stopBit s w k = false then some (errorAt .framing k (BitVec.ofNat 64 (payload s w sb k)))
              else none) = none := firstError_eq_none.2 fun k hk => by
        rw [if_neg]; rintro ⟨h1, h2⟩; simp [hs h1 k hk] at h2
    obtain ⟨x', m', he, hent⟩ := heff h hn
    refine ⟨(eff s).done, ?_, ?_, hent, ?_, ?_, ?_, ?_⟩
    · rw [hx, checkCapacity_of_le h, checkCapacity_of_le hn, hnone, firstError_eq_none.2 fun k hk => hok k _ (ha k hk)]; rfl
    · rw [he]; rfl
    · rw [he]; rfl
    · rw [he]; rfl
    · have h2 : (eff s).status = s.status := by rw [he]
      exact ⟨by rw [done_status, h2]; rfl, rfl, rfl⟩
    · rw [he]; exact ⟨rfl, rfl, rfl, rfl, rfl, rfl, rfl⟩

/-- A decode that keeps its integers writes the entries of `DecodedEntries`. -/
theorem decodeValues_entries (sb : Bool) (s : State) (w : Nat) :
    ∃ x' m', decodeValues w sb s = { s with x := x', misCnt := m', count := BitVec.ofNat 32 (decodeCount s.inLen.toNat w sb) } ∧
      DecodedEntries sb s w (decodeValues w sb s).done := by
  refine ⟨(decodeValues w sb s).x, 0, ?_, ?_⟩
  · simp [decodeValues, State.storeDecode]
  · have h := fun k => storeDecode_entries s w (vals := (inputValues w sb s).map (BitVec.ofNat 64))
      (auxs := (inputValues w sb s).map fun _ => 0) 0 k (by simp)
    refine ⟨fun k hk => ?_, fun k hk => ?_, rfl⟩
    · have hl : k < (inputValues w sb s).length := by simpa using hk
      have := getD_inputValues hk
      rw [List.getD_eq_getElem _ _ hl] at this
      obtain ⟨h1, h2, h3⟩ := h k
      simp only [List.length_map, length_inputValues, hk, if_true] at h1 h2 h3
      refine ⟨h1.trans ?_, h2, h3.trans ?_⟩
      · rw [List.getD_eq_getElem _ _ (by simpa using hl)]; simp [this]
      · rw [List.getD_eq_getElem _ _ (by simpa using hl)]; simp
    · obtain ⟨h1, h2, h3⟩ := h k
      simp only [List.length_map, length_inputValues, show ¬ k < decodeCount s.inLen.toNat w sb by omega, if_false] at h1 h2 h3
      exact ⟨h1, h2, h3⟩

/-- A decode without an error has no more fields than the value buffer has entries. -/
theorem decodeCount_le_of_ok {s : State} {w sb acc} (h : decodeError w sb acc s = none) : decodeCount s.inLen.toNat w sb ≤ s.params.nv := by
  rw [decodeError_eq, Option.or_eq_none_iff, Option.or_eq_none_iff] at h
  exact checkCapacity_eq_none.1 h.2.1

/-- Bits from `w - 1` down, as a number. -/
theorem foldl_testBit (r w m : Nat) (h : m ≤ w) :
    (List.range m).foldl (fun v j => 2 * v + (r.testBit (w - 1 - j)).toNat) 0 = r / 2 ^ (w - m) % 2 ^ m := by
  induction m with
  | zero => simp [Nat.mod_one]
  | succ m ih =>
    rw [List.range_succ, List.foldl_append, ih (by omega), List.foldl_cons, List.foldl_nil]
    have e : w - m = w - (m + 1) + 1 := by omega
    have e2 : w - 1 - m = w - (m + 1) := by omega
    rw [e, e2, Nat.pow_succ, ← Nat.div_div_eq_div_mul]
    generalize hx : w - (m + 1) = a
    have ht : (r.testBit a).toNat = r / 2 ^ a % 2 := by
      rw [Nat.testBit_eq_decide_div_mod_eq]
      have : r / 2 ^ a % 2 = 0 ∨ r / 2 ^ a % 2 = 1 := by omega
      rcases this with h | h <;> simp [h]
    rw [ht]
    generalize r / 2 ^ a = q
    rw [Nat.pow_succ, Nat.mul_comm (2 ^ m) 2, Nat.mod_mul]
    omega

/-- The fields of a chunk whose padding is shorter than a field, decoded. -/
theorem payload_of_chunk {n w : Nat} {r : Nat → Nat} {sb : Bool} {bit : Nat → Bool} {u : State}
    (hc : ChunkBits n (fun _ => w) r sb bit) (hL : u.inLen.toNat = (n * (w + sb.toNat) + 7) / 8)
    (hb : ∀ p < 8 * u.inLen.toNat, bitAt u.ibufAt p = bit p)
    (hpad : 8 * u.inLen.toNat - n * (w + sb.toNat) < w + sb.toNat) :
    decodeCount u.inLen.toNat w sb = n ∧
    ∀ k < n, payload u w sb k = r k % 2 ^ w ∧ (sb = true → stopBit u w k = true) := by
  have hcount : decodeCount u.inLen.toNat w sb = n := by
    rw [decodeCount]
    have e : 8 * u.inLen.toNat = (8 * u.inLen.toNat - n * (w + sb.toNat)) + (w + sb.toNat) * n := by
      rw [Nat.mul_comm (w + sb.toNat) n]; omega
    rw [e, Nat.add_mul_div_left _ _ (by omega), Nat.div_eq_of_lt hpad]; omega
  refine ⟨hcount, fun k hk => ?_⟩
  have hs : ∀ k, fieldStart u w sb k = (8 * u.inLen.toNat - n * (w + sb.toNat)) / 2 + k * (w + sb.toNat) := by
    intro k; rw [fieldStart, hcount]
  have hle := fieldStart_add_le (s := u) (w := w) (sb := sb) (k := k) (by omega)
  obtain ⟨-, h2, h3, -⟩ := hc
  rw [bitOffset_const] at h2 h3
  simp only [bitOffset_const] at h2 h3
  have hf : (8 - n * (w + sb.toNat) % 8) % 8 / 2 = (8 * u.inLen.toNat - n * (w + sb.toNat)) / 2 := by rw [hL]; omega
  rw [hf] at h2 h3
  constructor
  · rw [payload]
    have : ∀ j < w, bitAt u.ibufAt (fieldStart u w sb k + j) = (r k).testBit (w - 1 - j) := by
      intro j hj
      rw [hb _ (by omega), ← h2 k hk (w - 1 - j) (by omega), hs]
      congr 1; omega
    rw [foldl_bits_congr this, foldl_testBit _ _ _ (Nat.le_refl w)]
    simp
  · intro hsb
    have := h3 hsb k hk
    subst hsb
    rw [stopBit, hb _ (by simp at hle; omega), hs]
    exact this

/-- Whole bytes come apart. -/
theorem bitsToBytes_append {a b : List Bool} {n : Nat} (h : a.length = 8 * n) : bitsToBytes (a ++ b) = bitsToBytes a ++ bitsToBytes b := by
  induction n generalizing a with
  | zero => obtain rfl := List.eq_nil_of_length_eq_zero (by simpa using h); rfl
  | succ n ih =>
    obtain ⟨b7, b6, b5, b4, b3, b2, b1, b0, cs, rfl, hc⟩ := exists_eight h
    simp only [List.cons_append, bitsToBytes_cons8, ih hc]

/-! ## Codes and checksums -/

/-- The codes of R191, as a list and as a claim. -/
theorem mem_handshakeCodes (v : Nat) : v ∈ handshakeCodes ↔ IsHandshake v := by simp [handshakeCodes, IsHandshake]; omega

/-- The codes of R192, as a list and as a claim. -/
theorem mem_statusCodes (v : Nat) : v ∈ statusCodes ↔ IsReceiveStatus v := by simp [statusCodes, IsReceiveStatus]

/-- A character code in a byte. -/
theorem toNat_setWidth_byte (v : BitVec 64) (h : v.toNat < 256) : (v.setWidth 8).toNat = v.toNat := by
  rw [BitVec.toNat_setWidth]; omega

/-- The nibble of a character, as a number (R230). -/
theorem nibbleOf_toNat (m c : Byte) : (nibbleOf m c).toNat = ((c.toNat + m.toNat) % 256 / 16) ^^^ ((c.toNat + m.toNat) % 256 % 16) := by
  simp only [nibbleOf, BitVec.toNat_xor, BitVec.toNat_setWidth, BitVec.toNat_ushiftRight, BitVec.toNat_add, Nat.shiftRight_eq_div_pow]
  congr 1
  omega

/-- `magic`, as a number (R230). -/
theorem magicOf_toNat (text : List Byte) (h : text ≠ []) :
    (magicOf text).toNat = magicNumber text.length (fun j => (text.getD j 0).toNat) := by
  simp only [magicOf, magicNumber, BitVec.toNat_xor, BitVec.toNat_ofNat]
  congr 1
  congr 1
  · cases text <;> simp
  · cases text with
    | nil => simp at h
    | cons a l => simp [List.getLastD, List.getLast_eq_getElem]

/-- Embedding, as a number (R232). -/
theorem embed_toNat (c : Byte) (k : BitVec 4) : (embed c k).toNat = embedNumber c.toNat k.toNat := by
  simp only [embed, embedNumber, BitVec.toNat_append, BitVec.extractLsb'_toNat, Nat.shiftRight_eq_div_pow]
  rw [← Nat.shiftLeft_add_eq_or_of_lt (by omega), ← Nat.shiftLeft_add_eq_or_of_lt (by omega)]
  simp only [Nat.shiftLeft_eq]
  omega

/-- Extraction of the code, as a number (R233). -/
theorem extractCode_toNat (r : BitVec 12) : (extractCode r).toNat = codeNumber r.toNat := by
  simp only [extractCode, codeNumber, BitVec.extractLsb'_toNat, Nat.shiftRight_eq_div_pow]

/-- Extraction of the nibble, as a number (R233). -/
theorem extractNibble_toNat (r : BitVec 12) : (extractNibble r).toNat = nibbleNumber r.toNat := by
  simp only [extractNibble, nibbleNumber, BitVec.toNat_append, BitVec.extractLsb'_toNat, Nat.shiftRight_eq_div_pow]
  rw [← Nat.shiftLeft_add_eq_or_of_lt (by omega)]
  simp only [Nat.shiftLeft_eq]
  omega

/-- The code embedded is the code extracted. -/
theorem code_embed {c k : Nat} (hc : c < 256) (hk : k < 16) : codeNumber (embedNumber c k) = c := by
  unfold codeNumber embedNumber
  have : (k % 4 * 1024 + c * 4 + k / 4) / 4 = k % 4 * 256 + c := by omega
  omega

/-- The nibble embedded is the nibble extracted. -/
theorem nibble_embed {c k : Nat} (hc : c < 256) (hk : k < 16) : nibbleNumber (embedNumber c k) = k := by
  unfold nibbleNumber embedNumber
  have : (k % 4 * 1024 + c * 4 + k / 4) / 1024 = k % 4 := by omega
  have : (k % 4 * 1024 + c * 4 + k / 4) % 4 = k / 4 := by omega
  omega

/-- What is extracted embeds to the same integer. -/
theorem embed_code_nibble {r : Nat} (hr : r < 4096) : embedNumber (codeNumber r) (nibbleNumber r) = r := by
  unfold codeNumber nibbleNumber embedNumber
  have : (r % 4 * 4 + r / 1024 % 4) % 4 = r / 1024 := by omega
  have : (r % 4 * 4 + r / 1024 % 4) / 4 = r % 4 := by omega
  omega

/-- The checksum of a string depends on its characters only. -/
theorem checksumNibble_congr {m : Nat} {t u : Nat → Nat} {i : Nat} (hi : i < m) (h : ∀ k < m, t k = u k) :
    checksumNibble m t i = checksumNibble m u i := by
  simp only [checksumNibble, magicNumber, h 0 (by omega), h (m - 1) (by omega), h i hi]

/-- A nibble has four bits. -/
theorem checksumNibble_lt (m t i) : checksumNibble m t i < 16 := by
  simp only [checksumNibble]
  exact Nat.xor_lt_two_pow (n := 4) (by omega) (by omega)

/-- The operands as characters. -/
theorem operandText_eq (s : State) : operandText s = (List.range s.count.toNat).map fun k => (s.rawAt k).setWidth 8 := by
  simp [operandText, State.raws]

/-- Their number. -/
theorem length_operandText (s : State) : (operandText s).length = s.count.toNat := by simp [operandText_eq]

/-- One nibble for each character. -/
theorem length_streamChecksum (t : List Byte) : (streamChecksum t).length = t.length := by simp [streamChecksum]

/-- Each operand as a character. -/
theorem getD_operandText {s : State} {k : Nat} (hk : k < s.count.toNat) : (operandText s).getD k 0 = (s.rawAt k).setWidth 8 := by
  rw [operandText_eq, List.getD_eq_getElem _ _ (by simpa using hk)]; simp

/-- AUX of a nibble without a mismatch. -/
theorem auxOf_false (k : BitVec 4) : auxOf false k = BitVec.ofNat 5 k.toNat := by revert k; decide

/-- AUX, as a number (R45). -/
theorem auxOf_toNat (m : Bool) (k : BitVec 4) : auxOf m k = BitVec.ofNat 5 (k.toNat + m.toNat * 16) := by revert m k; decide

/-- The mismatch bit of AUX. -/
theorem auxM_auxOf (m : Bool) (k : BitVec 4) : auxM (auxOf m k) = m := by revert m k; decide

end Sys2Proof.Machine
end

