-- ==== Sys2Proof/Laws/Step.lean ====
section
/-! SUPPORT. Everything one step can do, said once; where each address leads. -/

namespace Sys2Proof.Machine

/-- Everything a step that answers a next state can have done. -/
theorem step_cases {s t : State} (h : step s = .next t) :
    (s.host = [] ∧ t = s) ∨
    (∃ a g rest, s.host = .readWord a :: rest ∧ locateWord s.params a = .ok g ∧
      t = s.afterEvent.answer (.word (readWord s g))) ∨
    (∃ a g rest, s.host = .readByte a :: rest ∧ locateByte s.params a = .ok g ∧
      t = s.afterEvent.answer (.byte (readByte s g))) ∨
    (∃ a w g rest, s.host = .writeWord a w :: rest ∧ locateWord s.params a = .ok g ∧ g ≠ .reg .cmd ∧
      t = writeWord s.afterEvent w g) ∨
    (∃ a w rest, s.host = .writeWord a w :: rest ∧ locateWord s.params a = .ok (.reg .cmd) ∧
      runWord w { s.afterEvent with cmd := w } = .next t) ∨
    (∃ a b g rest, s.host = .writeByte a b :: rest ∧ locateByte s.params a = .ok g ∧ t = writeByte s.afterEvent b g) ∨
    (∃ rest, s.host = .reset :: rest ∧ t = s.afterEvent.resetBlock) := by
  unfold step at h
  cases hs : s.host with
  | nil => rw [hs] at h; exact .inl ⟨rfl, by simpa using h.symm⟩
  | cons e rest =>
    rw [hs] at h
    cases e with
    | readWord a =>
      simp only [hostEvent, State.afterEvent_params] at h
      cases hl : locateWord s.params a with
      | error f => rw [hl] at h; simp at h
      | ok g => rw [hl] at h; exact .inr (.inl ⟨a, g, rest, rfl, hl, by injection h with h; rw [← h]; cases g with | reg r => cases r <;> rfl | _ => rfl⟩)
    | readByte a =>
      simp only [hostEvent, State.afterEvent_params] at h
      cases hl : locateByte s.params a with
      | error f => rw [hl] at h; simp at h
      | ok g => rw [hl] at h; exact .inr (.inr (.inl ⟨a, g, rest, rfl, hl, by injection h with h; rw [← h]; cases g <;> rfl⟩))
    | writeWord a w =>
      simp only [hostEvent, State.afterEvent_params] at h
      cases hl : locateWord s.params a with
      | error f => rw [hl] at h; simp at h
      | ok g =>
        rw [hl] at h
        by_cases hg : g = .reg .cmd
        · subst hg
          exact .inr (.inr (.inr (.inr (.inl ⟨a, w, rest, rfl, hl, h⟩))))
        · refine .inr (.inr (.inr (.inl ⟨a, w, g, rest, rfl, hl, hg, ?_⟩)))
          have : completeWriteWord s.afterEvent w g = .complete (writeWord s.afterEvent w g) := by
            cases g with
            | reg r => cases r <;> first | rfl | exact absurd rfl hg
            | _ => rfl
          simp only [this] at h
          injection h with h; exact h.symm
    | writeByte a b =>
      simp only [hostEvent, State.afterEvent_params] at h
      cases hl : locateByte s.params a with
      | error f => rw [hl] at h; simp at h
      | ok g => rw [hl] at h; exact .inr (.inr (.inr (.inr (.inr (.inl ⟨a, b, g, rest, rfl, hl, by injection h with h; exact h.symm⟩)))))
    | reset => exact .inr (.inr (.inr (.inr (.inr (.inr ⟨rest, rfl, by simpa [hostEvent] using h.symm⟩)))))

/-! ## Addresses -/

/-- A 32-bit access to a register's offset reaches the register. -/
theorem locateWord_reg (p : Params) (r : RegName) : locateWord p (BitVec.ofNat 19 r.offset) = .ok (.reg r) := by cases r <;> rfl

theorem regAtWord_inj {k : Nat} {r : RegName} (h : regAtWord k = some r) : r.offset = 4 * k := by
  unfold regAtWord at h
  split at h <;> cases h <;> rfl

/-- Where a 32-bit access can lead, within the capacities. -/
theorem locateWord_cases {p : Params} {a : Addr} {g : WordTarget} (h : locateWord p a = .ok g) :
    (∃ r, g = .reg r ∧ r.offset = a.toNat) ∨
    (∃ i k, i < p.nv ∧ g = entryWord i k) ∨
    (∃ j, j + 3 < p.nb ∧ (g = .ibuf j ∨ g = .obuf j)) := by
  simp only [locateWord] at h
  by_cases c1 : inRegisters a.toNat
  · rw [if_pos c1] at h
    by_cases c2 : a.toNat % 4 ≠ 0
    · rw [if_pos c2] at h; cases h
    rw [if_neg c2] at h
    cases hr : regAtWord (a.toNat / 4) with
    | none => rw [hr] at h; cases h
    | some r =>
      rw [hr] at h
      injection h with h
      have := regAtWord_inj hr
      exact .inl ⟨r, h.symm, by omega⟩
  rw [if_neg c1] at h
  by_cases c3 : inValueBuffer p a.toNat
  · rw [if_pos c3] at h
    by_cases c2 : a.toNat % 4 ≠ 0
    · rw [if_pos c2] at h; cases h
    rw [if_neg c2] at h
    injection h with h
    exact .inr (.inl ⟨_, _, by have := c3.1; have := c3.2; omega, h.symm⟩)
  rw [if_neg c3] at h
  by_cases c4 : inIbuf p a.toNat
  · rw [if_pos c4] at h
    by_cases c2 : a.toNat % 4 ≠ 0
    · rw [if_pos c2] at h; cases h
    rw [if_neg c2] at h
    by_cases c5 : a.toNat - ibufBase + 3 < p.nb
    · rw [if_pos c5] at h
      injection h with h
      exact .inr (.inr ⟨_, c5, .inl h.symm⟩)
    · rw [if_neg c5] at h; cases h
  rw [if_neg c4] at h
  by_cases c6 : inObuf p a.toNat
  · rw [if_pos c6] at h
    by_cases c2 : a.toNat % 4 ≠ 0
    · rw [if_pos c2] at h; cases h
    rw [if_neg c2] at h
    by_cases c5 : a.toNat - obufBase + 3 < p.nb
    · rw [if_pos c5] at h
      injection h with h
      exact .inr (.inr ⟨_, c5, .inr h.symm⟩)
    · rw [if_neg c5] at h; cases h
  · rw [if_neg c6] at h; cases h

theorem entryWord_cases (i k : Nat) :
    entryWord i k = .rawLo i ∨ entryWord i k = .rawHi i ∨ entryWord i k = .width i ∨ entryWord i k = .aux i := by
  unfold entryWord; split <;> simp

/-- Where a 32-bit access can lead, within the capacities. -/
theorem locateWord_bounds {p : Params} {a : Addr} {g : WordTarget} (h : locateWord p a = .ok g) :
    (∃ r, g = .reg r) ∨ (∃ i, i < p.nv ∧ (g = .rawLo i ∨ g = .rawHi i ∨ g = .width i ∨ g = .aux i)) ∨
    (∃ j, j + 3 < p.nb ∧ (g = .ibuf j ∨ g = .obuf j)) := by
  rcases locateWord_cases h with ⟨r, h, -⟩ | ⟨i, k, hi, h⟩ | h
  · exact .inl ⟨r, h⟩
  · exact .inr (.inl ⟨i, hi, by rw [h]; exact entryWord_cases i k⟩)
  · exact .inr (.inr h)

/-- Only CMD's offset reaches CMD. -/
theorem locateWord_eq_cmd {p : Params} {a : Addr} (h : locateWord p a = .ok (.reg .cmd)) : a = 0x0000C#19 := by
  rcases locateWord_cases h with ⟨r, h, hr⟩ | ⟨i, k, -, h⟩ | ⟨j, -, h | h⟩
  · injection h with h; subst h
    exact BitVec.eq_of_toNat_eq hr.symm
  · rcases entryWord_cases i k with e | e | e | e <;> rw [e] at h <;> cases h
  · cases h
  · cases h

/-- The word `k` of entry `i`. -/
theorem locateWord_entry {p : Params} (hp : p.wf) {i k : Nat} (hi : i < p.nv) (hk : k < 4) :
    locateWord p (BitVec.ofNat 19 (0x10000 + 16 * i + 4 * k)) = .ok (entryWord i k) := by
  obtain ⟨h1, h2, h3, h4⟩ := hp
  have hn : (BitVec.ofNat 19 (0x10000 + 16 * i + 4 * k)).toNat = 0x10000 + 16 * i + 4 * k := by
    rw [BitVec.toNat_ofNat]; omega
  simp only [locateWord, hn, inRegisters, inValueBuffer, valueBase]
  rw [if_neg (by omega), if_pos ⟨by omega, by omega⟩, if_neg (by omega)]
  rw [show (65536 + 16 * i + 4 * k - 65536) / 16 = i by omega, show (65536 + 16 * i + 4 * k - 65536) % 16 / 4 = k by omega]

/-- A word of IBUF. -/
theorem locateWord_ibuf {p : Params} (hp : p.wf) {j : Nat} (h4 : j % 4 = 0) (hj : j + 3 < p.nb) :
    locateWord p (BitVec.ofNat 19 (0x40000 + j)) = .ok (.ibuf j) := by
  obtain ⟨h1, h2, h3, h5⟩ := hp
  have hn : (BitVec.ofNat 19 (0x40000 + j)).toNat = 0x40000 + j := by rw [BitVec.toNat_ofNat]; omega
  simp only [locateWord, hn, inRegisters, inValueBuffer, inIbuf, valueBase, ibufBase]
  rw [if_neg (by omega), if_neg (by omega), if_pos ⟨by omega, by omega⟩, if_neg (by omega), if_pos (by omega)]
  rw [show 262144 + j - 262144 = j by omega]

/-- A word of OBUF. -/
theorem locateWord_obuf {p : Params} (hp : p.wf) {j : Nat} (h4 : j % 4 = 0) (hj : j + 3 < p.nb) :
    locateWord p (BitVec.ofNat 19 (0x60000 + j)) = .ok (.obuf j) := by
  obtain ⟨h1, h2, h3, h5⟩ := hp
  have hn : (BitVec.ofNat 19 (0x60000 + j)).toNat = 0x60000 + j := by rw [BitVec.toNat_ofNat]; omega
  simp only [locateWord, hn, inRegisters, inValueBuffer, inIbuf, inObuf, valueBase, ibufBase, obufBase]
  rw [if_neg (by omega), if_neg (by omega), if_neg (by omega), if_pos ⟨by omega, by omega⟩, if_neg (by omega), if_pos (by omega)]
  rw [show 393216 + j - 393216 = j by omega]

/-- A byte of IBUF. -/
theorem locateByte_ibuf {p : Params} (hp : p.wf) {j : Nat} (hj : j < p.nb) :
    locateByte p (BitVec.ofNat 19 (0x40000 + j)) = .ok (.ibuf j) := by
  obtain ⟨h1, h2, h3, h5⟩ := hp
  have hn : (BitVec.ofNat 19 (0x40000 + j)).toNat = 0x40000 + j := by rw [BitVec.toNat_ofNat]; omega
  simp only [locateByte, hn, inRegisters, inValueBuffer, inIbuf, valueBase, ibufBase]
  rw [if_neg (by omega), if_pos ⟨by omega, by omega⟩, show 262144 + j - 262144 = j by omega]

/-- A byte of OBUF. -/
theorem locateByte_obuf {p : Params} (hp : p.wf) {j : Nat} (hj : j < p.nb) :
    locateByte p (BitVec.ofNat 19 (0x60000 + j)) = .ok (.obuf j) := by
  obtain ⟨h1, h2, h3, h5⟩ := hp
  have hn : (BitVec.ofNat 19 (0x60000 + j)).toNat = 0x60000 + j := by rw [BitVec.toNat_ofNat]; omega
  simp only [locateByte, hn, inRegisters, inValueBuffer, inIbuf, inObuf, valueBase, ibufBase, obufBase]
  rw [if_neg (by omega), if_neg (by omega), if_pos ⟨by omega, by omega⟩, show 393216 + j - 393216 = j by omega]

/-- Where an 8-bit access can lead, within the capacities. -/
theorem locateByte_bounds {p : Params} {a : Addr} {g : ByteTarget} (h : locateByte p a = .ok g) :
    ∃ j, j < p.nb ∧ (g = .ibuf j ∨ g = .obuf j) := by
  simp only [locateByte] at h
  by_cases c1 : inRegisters a.toNat ∨ inValueBuffer p a.toNat
  · rw [if_pos c1] at h; cases h
  rw [if_neg c1] at h
  by_cases c2 : inIbuf p a.toNat
  · rw [if_pos c2] at h; injection h with h
    exact ⟨_, by have := c2.1; have := c2.2; omega, .inl h.symm⟩
  rw [if_neg c2] at h
  by_cases c3 : inObuf p a.toNat
  · rw [if_pos c3] at h; injection h with h
    exact ⟨_, by have := c3.1; have := c3.2; omega, .inr h.symm⟩
  · rw [if_neg c3] at h; cases h

/-! ## The step on each kind of access -/

/-- The step on an accepted 32-bit read. -/
theorem step_readWord {s : State} {a : Addr} {g : WordTarget} (h : locateWord s.params a = .ok g) {rest : List HostEvent}
    (hs : s.host = .readWord a :: rest) : step s = .next { s with host := rest, rdata := some (.word (readWord s g)) } := by
  unfold step; rw [hs]
  simp only [hostEvent, State.afterEvent_params, h]
  cases g with
  | reg r => cases r <;> simp only [State.afterEvent, State.answer, hs] <;> rfl
  | _ => simp only [State.afterEvent, State.answer, hs]; rfl

/-- The step on an accepted 32-bit write, but for one to CMD. -/
theorem step_writeWord {s : State} {a : Addr} {w : Word} {g : WordTarget} {rest} (h : locateWord s.params a = .ok g) (hg : g ≠ .reg .cmd)
    (hs : s.host = .writeWord a w :: rest) : step s = .next (writeWord { s with host := rest, rdata := none } w g) := by
  unfold step; rw [hs]
  have e : s.afterEvent = { s with host := rest, rdata := none } := by simp [State.afterEvent, hs]
  simp only [hostEvent, h, e]
  cases g with
  | reg r => cases r <;> first | rfl | exact absurd rfl hg
  | _ => rfl

/-- The step on a write to CMD: the word is stored and run (R36). -/
theorem step_writeCmd {s : State} {a : Addr} {w : Word} {rest} (h : locateWord s.params a = .ok (.reg .cmd))
    (hs : s.host = .writeWord a w :: rest) : step s = runWord w { s with host := rest, rdata := none, cmd := w } := by
  unfold step; rw [hs]; simp only [State.afterEvent, hs, hostEvent, h]; rfl

/-- The step on an accepted 8-bit write. -/
theorem step_writeByte {s : State} {a : Addr} {b : Byte} {g : ByteTarget} {rest} (h : locateByte s.params a = .ok g)
    (hs : s.host = .writeByte a b :: rest) : step s = .next (writeByte { s with host := rest, rdata := none } b g) := by
  unfold step; rw [hs]
  have e : s.afterEvent = { s with host := rest, rdata := none } := by simp [State.afterEvent, hs]
  simp only [hostEvent, h, e]

/-- The step on an accepted 8-bit read. -/
theorem step_readByte {s : State} {a : Addr} {g : ByteTarget} {rest} (h : locateByte s.params a = .ok g)
    (hs : s.host = .readByte a :: rest) : step s = .next { s with host := rest, rdata := some (.byte (readByte s g)) } := by
  unfold step; rw [hs]
  have e : s.afterEvent = { s with host := rest, rdata := none } := by simp [State.afterEvent, hs]
  simp only [hostEvent, h, e]
  cases g <;> rfl

end Sys2Proof.Machine
end

