-- ==== Sys2Proof/Machine/Script.lean ====
section
/-! DEFINITION. How a host writes its accesses: the command syntax, host scripts and macros of 30_encoding.md R118 to R120, as
lists of host events, and the sends and receives of a session (70_reset_and_hazards.md R352, R355). None of it is state or
behaviour of the block (log 14). -/

namespace Sys2Proof.Machine

/-! ## Commands as text (R118) -/

/-- A command line split into its mnemonic, letter by letter, and its operands `s=` and `w=`, each present or absent. -/
structure CommandText where
  mnemonic : List Char
  s : Option Bool
  w : Option Nat
deriving DecidableEq, Repr

/-- A command that takes `s=` alone; absent it is 0. -/
def withStop (t : CommandText) (i : Bool → Instr) : Option Instr :=
  if t.w.isNone then some (i (t.s.getD false)) else none

/-- A command without operands. -/
def withoutOperands (t : CommandText) (i : Instr) : Option Instr :=
  if t.s.isNone && t.w.isNone then some i else none

/-- R118: the command a line stands for. Mnemonics are case-insensitive; `w=` is required for `bdec`, and nowhere else allowed. -/
def assemble (t : CommandText) : Option Instr :=
  match t.mnemonic.map Char.toLower with
  | ['b', 'e', 'n', 'c'] => withStop t .benc
  | ['b', 'd', 'e', 'c'] => t.w.bind fun w => if w < 256 then some (.bdec (t.s.getD false) w) else none
  | ['e', 'n', 'c', '.', 'h', 's'] => withStop t .encHs
  | ['e', 'n', 'c', '.', 'v', 'e', 'r'] => withStop t .encVer
  | ['e', 'n', 'c', '.', 'n', 'u', 'm'] => withStop t .encNum
  | ['e', 'n', 'c', '.', 'c', 'h', 'r'] => withStop t .encChr
  | ['e', 'n', 'c', '.', 'r', 's'] => withStop t .encRs
  | ['d', 'e', 'c', '.', 'h', 's'] => withStop t .decHs
  | ['d', 'e', 'c', '.', 'v', 'e', 'r'] => withStop t .decVer
  | ['d', 'e', 'c', '.', 'n', 'u', 'm'] => withStop t .decNum
  | ['d', 'e', 'c', '.', 'c', 'h', 'r'] => withStop t .decChr
  | ['d', 'e', 'c', '.', 'r', 's'] => withStop t .decRs
  | ['c', 'h', 'k', 's', 'u', 'm'] => withoutOperands t .chksum
  | ['c', 'l', 'r'] => withoutOperands t .clr
  | _ => none

/-! ## Script lines (R119) -/

/-- `wr R, v` for a register. -/
def wrReg (r : RegName) (v : Word) : HostEvent := .writeWord (BitVec.ofNat 19 r.offset) v

/-- `rd R` for a register. -/
def rdReg (r : RegName) : HostEvent := .readWord (BitVec.ofNat 19 r.offset)

/-- The address of word `k` of entry `i`: 0 lo, 1 hi, 2 w, 3 aux (R82). -/
def entryAddr (i k : Nat) : Addr := BitVec.ofNat 19 (valueBase + 16 * i + 4 * k)

/-- `wr x[i].lo, v`. -/
def wrLo (i : Nat) (v : Word) : HostEvent := .writeWord (entryAddr i 0) v

/-- `wr x[i].hi, v`. -/
def wrHi (i : Nat) (v : Word) : HostEvent := .writeWord (entryAddr i 1) v

/-- `wr x[i].w, v`. -/
def wrWidth (i : Nat) (v : Word) : HostEvent := .writeWord (entryAddr i 2) v

/-- `wr x[i].aux, v`. -/
def wrAux (i : Nat) (v : Word) : HostEvent := .writeWord (entryAddr i 3) v

/-- `wr ibuf[j], v`. -/
def wrIbuf (j : Nat) (v : Word) : HostEvent := .writeWord (BitVec.ofNat 19 (ibufBase + j)) v

/-- `wrb ibuf[j], b`. -/
def wrbIbuf (j : Nat) (b : Byte) : HostEvent := .writeByte (BitVec.ofNat 19 (ibufBase + j)) b

/-- `rdb obuf[j]`. -/
def rdbObuf (j : Nat) : HostEvent := .readByte (BitVec.ofNat 19 (obufBase + j))

/-- `cmd <command>`. -/
def cmd (i : Instr) : HostEvent := wrReg .cmd (encode i)

/-! ## Macros (R120) -/

/-- `ldc i, v`. -/
def ldc (i : Nat) (v : BitVec 64) : List HostEvent := [wrLo i (v.setWidth 32), wrHi i (v.extractLsb' 32 32)]

/-- `ldv i, w, v`. -/
def ldv (i : Nat) (w : BitVec 8) (v : BitVec 64) : List HostEvent := wrWidth i (w.setWidth 32) :: ldc i v

/-- `setn n`. -/
def setn (n : Nat) : List HostEvent := [wrReg .count (BitVec.ofNat 32 n)]

/-- `ldstr s`. -/
def ldstr (text : List Byte) : List HostEvent :=
  (text.zipIdx.flatMap fun c => ldc c.2 (c.1.setWidth 64)) ++ setn text.length

/-- `ldin b0 b1 ...`. -/
def ldin (bytes : List Byte) : List HostEvent :=
  (bytes.zipIdx.map fun b => wrbIbuf b.2 b.1) ++ [wrReg .inLen (BitVec.ofNat 32 bytes.length)]

/-! ## A session's sends and receives (R352, R355) -/

/-- R157: the bytes of a chunk of `n` values of a type. -/
def chunkBytes (ty : ProtoType) (n : Nat) (stop : Bool) : Nat := ceilDiv (n * (wireWidth ty + stop.toNat)) 8

/-- R352: one field is one chunk of one encode; `stop` is HOST_STOP of its type, whose choice by the spec is 1. -/
def sendField (ty : ProtoType) (v : BitVec 64) (stop : Bool) : List HostEvent := ldc 0 v ++ setn 1 ++ [cmd (encOf stop ty)]

/-- R352: a string is one chunk of one ENC.CHR. -/
def sendString (text : List Byte) (stop : Bool) : List HostEvent := ldstr text ++ [cmd (.encChr stop)]

/-- R352: one chunk is decoded by one decode, over exactly its bytes (R344, R345). -/
def receive (ty : ProtoType) (bytes : List Byte) (stop : Bool) : List HostEvent := ldin bytes ++ [cmd (decOf stop ty)]

end Sys2Proof.Machine
end

