-- ==== Sys2Proof/Tests/Slice0.lean ====
section
/-! SUPPORT. Tests, with expected results taken from the spec (the tables of 30_encoding.md and the vectors of 95_test_vectors.md),
and a witness for the hypotheses of every obligation, clause by clause. -/

namespace Sys2Proof.Tests

open Sys2Proof Sys2Proof.Machine

/-! ## Small states -/

/-- A block of the given capacities, just reset. -/
def block (nv nb : Nat) : State := State.resetWith { nv := nv, nb := nb } 0

/-- Entries of the given widths and values, and COUNT their number. -/
def State.holding (s : State) (es : List (Nat × Nat)) : State :=
  { s with
    count := BitVec.ofNat 32 es.length
    x :=
      { rawLo := Sparse.number 0 (es.map fun e => BitVec.ofNat 32 e.2)
        rawHi := Sparse.number 0 (es.map fun e => BitVec.ofNat 32 (e.2 / 2 ^ 32))
        width := Sparse.number 0 (es.map fun e => BitVec.ofNat 8 e.1)
        aux := Sparse.number 0 (es.map fun _ => 0) } }

/-- Input bytes, and IN_LEN their number. -/
def State.fed (s : State) (bytes : List Nat) : State :=
  { s with inLen := BitVec.ofNat 32 bytes.length, ibuf := Sparse.number 0 (bytes.map (BitVec.ofNat 8)) }

/-- The bytes written in OBUF so far, in order. -/
def sent (s : State) : List Nat := s.obuf.map fun c => c.2.toNat

/-- Where a command leads from a state. -/
def after (i : Instr) (s : State) : State :=
  match exec i s with
  | .next t => t
  | .fault _ => s
  | .refused _ => s

/-- Where a step leads from a state. -/
def afterStep (s : State) : State :=
  match step s with
  | .next t => t
  | .fault _ => s
  | .refused _ => s

/-- Entries of a reset reference block. -/
abbrev entries (es : List (Nat × Nat)) : State := State.holding State.reset es

/-- Input bytes of a reset reference block. -/
abbrev input (bytes : List Nat) : State := State.fed State.reset bytes

/-! ## Well-formedness (R112) -/

theorem test_width_field_has_eight_bits : (Instr.bdec true 256).wf = false ∧ (Instr.bdec true 255).wf = true := by decide

/-! ## Decoding: words written out from the fields of R111, OP in bits 3:0, S in 4, T in 10:8, W in 23:16 -/

theorem test_decode_benc : decode 0b00000000_00000000_00000_000_000_1_0001#32 = .ok (.benc true) := by decide

theorem test_decode_bdec : decode 0b00000000_00010101_00000_000_000_1_0010#32 = .ok (.bdec true 21) := by decide

theorem test_decode_bdec_longest : decode 0b00000000_11111111_00000_000_000_0_0010#32 = .ok (.bdec false 255) := by decide

theorem test_decode_encHs : decode 0b00000000_00000000_00000_000_000_1_0011#32 = .ok (.encHs true) := by decide

theorem test_decode_encVer : decode 0b00000000_00000000_00000_001_000_0_0011#32 = .ok (.encVer false) := by decide

theorem test_decode_encNum : decode 0b00000000_00000000_00000_010_000_1_0011#32 = .ok (.encNum true) := by decide

theorem test_decode_encChr : decode 0b00000000_00000000_00000_011_000_0_0011#32 = .ok (.encChr false) := by decide

theorem test_decode_encRs : decode 0b00000000_00000000_00000_100_000_1_0011#32 = .ok (.encRs true) := by decide

theorem test_decode_decHs : decode 0b00000000_00000000_00000_000_000_0_0100#32 = .ok (.decHs false) := by decide

theorem test_decode_decVer : decode 0b00000000_00000000_00000_001_000_1_0100#32 = .ok (.decVer true) := by decide

theorem test_decode_decNum : decode 0b00000000_00000000_00000_010_000_0_0100#32 = .ok (.decNum false) := by decide

theorem test_decode_decChr : decode 0b00000000_00000000_00000_011_000_1_0100#32 = .ok (.decChr true) := by decide

theorem test_decode_decRs : decode 0b00000000_00000000_00000_100_000_0_0100#32 = .ok (.decRs false) := by decide

theorem test_decode_chksum : decode 0b00000000_00000000_00000_000_000_0_0101#32 = .ok .chksum := by decide

theorem test_decode_clr : decode 0b00000000_00000000_00000_000_000_0_0110#32 = .ok .clr := by decide

-- R116: one word of each illegal kind.
theorem test_decode_illegal :
    decode 0b00000000_00000000_00000_000_000_0_0000#32 = .error .unassignedOp ∧
    decode 0b00000000_00000000_00000_000_000_0_0111#32 = .error .unassignedOp ∧
    decode 0b00000000_00000000_00000_000_001_0_0001#32 = .error .reservedBits ∧
    decode 0b00000000_00000000_10000_000_000_0_0001#32 = .error .reservedBits ∧
    decode 0b10000000_00000000_00000_000_000_1_0011#32 = .error .reservedBits ∧
    decode 0b00000000_00000000_00000_101_000_0_0011#32 = .error .unassignedType ∧
    decode 0b00000000_00000001_00000_000_000_0_0100#32 = .error .unusedField ∧
    decode 0b00000000_00000000_00000_000_000_1_0101#32 = .error .unusedField := by decide

/-! ## The commands: vectors of 95_test_vectors.md -/

theorem test_benc_handshake : sent (after (.benc true) (entries [(21, 72)])) = [0, 1, 34] ∧ (after (.benc true) (entries [(21, 72)])).status = 1 ∧
    (after (.benc true) (entries [(21, 72)])).outLen = 3 := by decide

theorem test_benc_mixed_widths : sent (after (.benc true) (entries [(5, 0x1F), (3, 0), (9, 0x155)])) = [63, 26, 172] ∧ (after (.benc true) (entries [(5, 0x1F), (3, 0), (9, 0x155)])).status = 1 ∧
    (after (.benc true) (entries [(5, 0x1F), (3, 0), (9, 0x155)])).outLen = 3 := by decide

theorem test_bdec_handshake : (after (.bdec true 21) (input [0x00, 0x01, 0x22])).rawAt 0 = 72 ∧
    (after (.bdec true 21) (input [0x00, 0x01, 0x22])).count = 1 := by decide

-- The stop bit of the first field is 0: `E_FRAMING`, ERRVAL the payload.
theorem test_bdec_framing : after (.bdec true 21) (input [0x00, 0x01, 0x20]) = (input [0x00, 0x01, 0x20]).failed 5 0 0x48 := by
  decide

theorem test_encHs_clientHello : sent (after (.encHs false) (entries [(0, 72)])) = [0, 1, 32] ∧ (after (.encHs false) (entries [(0, 72)])).status = 1 ∧
    (after (.encHs false) (entries [(0, 72)])).outLen = 3 := by decide

theorem test_encVer_99 : sent (after (.encVer true) (entries [(0, 99)])) = [6, 56] ∧ (after (.encVer true) (entries [(0, 99)])).status = 1 ∧
    (after (.encVer true) (entries [(0, 99)])).outLen = 2 := by decide

theorem test_encNum_reduces : sent (after (.encNum true) (entries [(0, 0x103C)])) = [1, 228] ∧ (after (.encNum true) (entries [(0, 0x103C)])).status = 1 ∧
    (after (.encNum true) (entries [(0, 0x103C)])).outLen = 2 := by decide

theorem test_encRs_success : sent (after (.encRs true) (entries [(0, 1)])) = [0, 24] ∧ (after (.encRs true) (entries [(0, 1)])).status = 1 ∧
    (after (.encRs true) (entries [(0, 1)])).outLen = 2 := by decide

theorem test_encHs_none_is_refused :
    after (.encHs true) (entries [(0, 2 ^ 64 - 42)]) = (entries [(0, 2 ^ 64 - 42)]).failed 4 0 (BitVec.ofNat 64 (2 ^ 64 - 42)) := by
  decide

theorem test_decHs_goodbye : (after (.decHs true) (input [0x00, 0x00, 0x02])).rawAt 0 = 0 ∧
    (after (.decHs true) (input [0x00, 0x00, 0x02])).widthAt 0 = 21 := by decide

theorem test_decHs_no_code : after (.decHs true) (input [0x00, 0x00, 0x16]) = (input [0x00, 0x00, 0x16]).failed 4 0 5 := by decide

theorem test_decVer_99 : (after (.decVer true) (input [0x06, 0x38])).rawAt 0 = 99 ∧
    (after (.decVer true) (input [0x06, 0x38])).status = 1 := by decide

theorem test_decNum_mode : (after (.decNum true) (input [0x01, 0xE4])).rawAt 0 = 0x3C ∧
    (after (.decNum true) (input [0x01, 0xE4])).count = 1 := by decide

theorem test_decRs_failure : (after (.decRs true) (input [0x00, 0x28])).rawAt 0 = 2 ∧
    (after (.decRs true) (input [0x00, 0x28])).widthAt 0 = 9 := by decide

-- "AB" (R235).
theorem test_encChr_AB : sent (after (.encChr true) (entries [(0, 0x41), (0, 0x42)])) = [0x12, 0x0B, 0xD0, 0x98] ∧
    (after (.encChr true) (entries [(0, 0x41), (0, 0x42)])).x.aux = [(0, 6), (1, 7)] := by decide

theorem test_decChr_AB : (after (.decChr true) (input [0x12, 0x0B, 0xD0, 0x98])).x.rawLo = [(0, 0x41), (1, 0x42)] ∧
    (after (.decChr true) (input [0x12, 0x0B, 0xD0, 0x98])).misCnt = 0 := by decide

-- The second character corrupted to 0x43 (R236): M on the first, CHKMIS, no error.
theorem test_decChr_corrupted : (after (.decChr true) (input [0x12, 0x0B, 0xD0, 0xD8])).x.aux = [(0, 0x16), (1, 7)] ∧
    (after (.decChr true) (input [0x12, 0x0B, 0xD0, 0xD8])).status = 0x009 := by decide

theorem test_chksum_A : (after .chksum (entries [(0, 0x41)])).auxAt 0 = 6 ∧ (after .chksum (entries [(0, 0x41)])).outLen = 0 := by decide

theorem test_clr_after_framing_error :
    (after .clr { State.reset with status := 0x00000153 }).status = 0x00000001 := by decide

/-! ## Steps and bus accesses (30_encoding.md R118 to R120, 20_memory.md) -/

theorem test_step_runs_the_word_written_to_cmd :
    sent (afterStep ((entries [(0, 72)]).withFetchWord 32 0x00000013)) = [0x00, 0x01, 0x22] ∧
    (afterStep ((entries [(0, 72)]).withFetchWord 32 0x00000013)).cmd = 0x00000013 := by decide

theorem test_decodeTableWord_is_the_decoder : decodeTableWord 32 0x00150012 = some (.bdec true 21) ∧ decodeTableWord 32 0 = none := by
  decide

-- 95_test_vectors.md: the word 0x33220100 packed from the bytes 00 01 22 33.
theorem test_words_are_little_endian :
    (afterStep { (input [0x00, 0x01, 0x22, 0x33]) with host := [.readWord 0x40000#19] }).rdata = some (.word 0x33220100) := by decide

theorem test_refusals :
    step { State.reset with host := [.readWord 0x00002#19] } = .fault (.misaligned 0x00002#19) ∧
    step { State.reset with host := [.readByte 0x00010#19] } = .fault (.wrongWidth 0x00010#19) ∧
    step { State.reset with host := [.readWord 0x00030#19] } = .fault (.unmapped 0x00030#19) ∧
    step { block 1 10 with host := [.readWord 0x40008#19] } = .fault (.pastEnd 0x40008#19) := ⟨rfl, rfl, rfl, rfl⟩

theorem test_script_assembles :
    assemble { mnemonic := ['E', 'n', 'c', '.', 'h', 's'], s := some true, w := none } = some (.encHs true) ∧
    assemble { mnemonic := ['b', 'd', 'e', 'c'], s := none, w := none } = none := by decide

/-! ## Witnesses: hypotheses met, clause by clause -/

theorem witness_DecodeOfEncodeIsTheCommand : (Instr.bdec true 0).wf = true ∧ (Instr.bdec false 255).wf = true ∧ Instr.clr.wf = true := by
  decide

theorem witness_LegalWordsAreTheListedOnes :
    decode 0x00FF0012#32 = .ok (.bdec true 255) ∧ (Instr.bdec true 255).wf = true ∧ 0x00FF0012#32 = specWord (.bdec true 255) := by decide

theorem witness_IllegalWordsAreTheListedOnes :
    IllegalFields 0x00000000#32 ∧ IllegalFields 0x00000007#32 ∧ IllegalFields 0x80000001#32 ∧ IllegalFields 0x00000503#32 ∧
    IllegalFields 0x00010001#32 ∧ IllegalFields 0x00000016#32 ∧ ¬ IllegalFields 0x00FF0012#32 := by
  refine ⟨?_, ?_, ?_, ?_, ?_, ?_, ?_⟩ <;> decide

theorem witness_IllegalWordsAreTheListedOnes_widths :
    (0 < 256 ∧ (0 = 0 ∨ 64 < 0)) ∧ (65 < 256 ∧ (65 = 0 ∨ 64 < 65)) ∧ (255 < 256 ∧ (255 = 0 ∨ 64 < 255)) := by decide

/-- A block with one event to come. -/
abbrev facing (e : HostEvent) : State := { block 2 12 with host := [e] }

theorem witness_CmdWriteStoresAndExecutes :
    ((facing (.writeWord 0x0000C#19 0x00000005#32)).host = [.writeWord 0x0000C#19 0x00000005#32] ∧ decode 0x00000005#32 = .ok .chksum) ∧
    ((facing (.writeWord 0x0000C#19 0#32)).host = [.writeWord 0x0000C#19 0#32] ∧ (decode 0#32).toOption = none) ∧
    (facing (.readWord 0x0000C#19)).host = [.readWord 0x0000C#19] := by decide

theorem witness_FetchedWordRuns : 0 < 2 ^ 32 ∧ 2 ^ 32 - 1 < 2 ^ 32 := by decide

theorem witness_IllegalWordRaisesECmd : (decode 0x00000007#32).toOption = none ∧ (decode 0xFFFFFFFF#32).toOption = none := by decide

theorem witness_IdleBlockKeepsItsState : State.reset.host = [] := rfl

theorem witness_StepTakesTheFirstEvent : ∃ t, step (facing .reset) = .next t := ⟨_, rfl⟩

-- Each kind of access, accepted at the last place of a region and refused at the next.
theorem witness_AccessesAreRefusedOutsideTheMap :
    (block 2 12).params.wf ∧ (facing (.readWord 0x0002C#19)).host = [.readWord 0x0002C#19] ∧
    (facing (.writeWord 0x60008#19 1#32)).host = [.writeWord 0x60008#19 1#32] ∧
    (facing (.readByte 0x4000B#19)).host = [.readByte 0x4000B#19] ∧
    (facing (.writeByte 0x6000B#19 1#8)).host = [.writeByte 0x6000B#19 1#8] := by decide

theorem witness_AccessesAreRefusedOutsideTheMap_accepted :
    WordAccepted (block 2 12).params 0x0002C ∧ WordAccepted (block 2 12).params 0x1001C ∧
    WordAccepted (block 2 12).params 0x40008 ∧ WordAccepted (block 2 12).params 0x60008 ∧
    ByteAccepted (block 2 12).params 0x4000B ∧ ByteAccepted (block 2 12).params 0x6000B := by decide

theorem witness_AccessesAreRefusedOutsideTheMap_refused :
    ¬ WordAccepted (block 2 12).params 0x00030 ∧ ¬ WordAccepted (block 2 12).params 0x10020 ∧
    ¬ WordAccepted (block 2 12).params 0x4000C ∧ ¬ WordAccepted (block 2 12).params 0x6000A ∧
    ¬ ByteAccepted (block 2 12).params 0x4000C ∧ ¬ ByteAccepted (block 2 12).params 0x0002C := by decide

theorem witness_RegisterReadsFollowTheMap :
    (facing (.readWord 0x00000#19)).host = [.readWord 0x00000#19] ∧ (facing (.readWord 0x00018#19)).host = [.readWord 0x00018#19] ∧
    (facing (.readWord 0x0002C#19)).host = [.readWord 0x0002C#19] := by decide

/-- A state of the invariant. -/
theorem small_inv (e : HostEvent) : (facing e).Inv :=
  { params := (by decide : Params.wf { nv := 2, nb := 12 })
    rawLo := (by decide : Sparse.wf 2 ([] : Sparse Word))
    rawHi := (by decide : Sparse.wf 2 ([] : Sparse Word))
    width := (by decide : Sparse.wf 2 ([] : Sparse (BitVec 8)))
    aux := (by decide : Sparse.wf 2 ([] : Sparse (BitVec 5)))
    ibuf := (by decide : Memory.wf 12 [])
    obuf := (by decide : Memory.wf 12 [])
    outLen := Nat.zero_le _
    misCnt := Nat.zero_le _
    reserved := (by decide : 0#32 &&& 0xFFFFFE04#32 = 0)
    ecode := (by decide : (statusEcode 0#32).toNat ≤ 6)
    err := (by decide : (statusErr 0#32 = true ↔ statusEcode 0#32 ≠ 0))
    sticky := (by decide : statusErr 0#32 = true → statusSticky 0#32 = true)
    fresh := fun _ => ⟨rfl, rfl⟩
    chkmis := (by decide : statusChkmis 0#32 = (statusDone 0#32 && !(statusErr 0#32) && (0#32 != 0)))
    noError := fun _ => ⟨rfl, rfl⟩
    cmdError := fun h => absurd h (by decide : ¬ statusDone 0#32 = true) }

theorem witness_ReadOnlyAndReservedBits :
    ((facing (.writeWord 0x00010#19 7#32)).host = [.writeWord 0x00010#19 7#32] ∧
      0x00010#19 ∈ [0x00000#19, 0x00004#19, 0x00008#19, 0x00010#19, 0x00014#19, 0x00018#19, 0x0001C#19, 0x00028#19, 0x0002C#19]) ∧
    (facing .reset).Inv ∧ (block 2 12).params.wf ∧ 1 < (block 2 12).params.nv ∧
    (facing (.writeWord 0x00020#19 7#32)).host = [.writeWord 0x00020#19 7#32] ∧
    (facing (.writeWord 0x00024#19 7#32)).host = [.writeWord 0x00024#19 7#32] ∧
    (facing (.writeWord 0x0000C#19 7#32)).host = [.writeWord 0x0000C#19 7#32] :=
  ⟨by decide, small_inv _, by decide⟩

-- WIDTH and AUX of the last entry, written with every bit set and read back.
theorem witness_ReadOnlyAndReservedBits_entries :
    (∃ s : State, s.host = .writeWord (BitVec.ofNat 19 (0x10000 + 16 * 1 + 8)) 0xFFFFFFFF#32 ::
      .readWord (BitVec.ofNat 19 (0x10000 + 16 * 1 + 8)) :: [] ∧ s.params.wf ∧ 1 < s.params.nv) ∧
    ∃ s : State, s.host = .writeWord (BitVec.ofNat 19 (0x10000 + 16 * 1 + 12)) 0xFFFFFFFF#32 ::
      .readWord (BitVec.ofNat 19 (0x10000 + 16 * 1 + 12)) :: [] ∧ s.params.wf ∧ 1 < s.params.nv :=
  ⟨⟨{ block 2 12 with host := _ }, rfl, by decide, by decide⟩, ⟨{ block 2 12 with host := _ }, rfl, by decide, by decide⟩⟩

-- The first and the last entry, the first and the last of an entry's words.
theorem witness_EntryWordsReadAndWrite :
    (block 2 12).params.wf ∧ 0 < (block 2 12).params.nv ∧ 1 < (block 2 12).params.nv ∧ 0 < 4 ∧ 3 < 4 ∧
    (facing (.readWord (BitVec.ofNat 19 (0x10000 + 16 * 1 + 12)))).host = [.readWord 0x1001C#19] ∧
    (facing (.writeWord (BitVec.ofNat 19 (0x10000 + 16 * 0 + 4 * 0)) 5#32)).host = [.writeWord 0x10000#19 5#32] ∧
    (facing (.writeWord (BitVec.ofNat 19 (0x10000 + 16 * 1 + 4 * 3)) 5#32)).host = [.writeWord 0x1001C#19 5#32] := by decide

theorem witness_ByteBufferBytesReadAndWrite :
    (block 2 12).params.wf ∧ 11 < (block 2 12).params.nb ∧
    (facing (.readByte (BitVec.ofNat 19 (0x40000 + 11)))).host = [.readByte 0x4000B#19] ∧
    (facing (.readByte (BitVec.ofNat 19 (0x60000 + 0)))).host = [.readByte 0x60000#19] ∧
    (facing (.writeByte (BitVec.ofNat 19 (0x60000 + 11)) 1#8)).host = [.writeByte 0x6000B#19 1#8] ∧
    (facing (.writeByte (BitVec.ofNat 19 (0x40000 + 0)) 1#8)).host = [.writeByte 0x40000#19 1#8] := by decide

theorem witness_ByteBufferWordsAreLittleEndian :
    (block 2 12).params.wf ∧ 8 % 4 = 0 ∧ 8 + 3 < (block 2 12).params.nb ∧
    (facing (.readWord (BitVec.ofNat 19 (0x40000 + 8)))).host = [.readWord 0x40008#19] ∧
    (facing (.readWord (BitVec.ofNat 19 (0x60000 + 0)))).host = [.readWord 0x60000#19] ∧
    (facing (.writeWord (BitVec.ofNat 19 (0x60000 + 8)) 1#32)).host = [.writeWord 0x60008#19 1#32] ∧
    (facing (.writeWord (BitVec.ofNat 19 (0x40000 + 0)) 1#32)).host = [.writeWord 0x40000#19 1#32] := by decide

theorem witness_ReadsHaveNoSideEffects :
    (∃ t, step (facing (.readWord 0x00010#19)) = .next t) ∧ ∃ t, step (facing (.readByte 0x40000#19)) = .next t := ⟨⟨_, rfl⟩, ⟨_, rfl⟩⟩

theorem witness_resets : (facing .reset).host = .reset :: [] := rfl

theorem witness_ResetMeetsTheInvariant : Params.wf { nv := 1, nb := 9 } ∧ Params.wf { nv := 12288, nb := 131072 } := by decide

-- A step of each kind from a state of the invariant.
theorem witness_StepKeepsTheInvariant :
    ((facing (.writeWord 0x0000C#19 0x00000013#32)).Inv ∧ ∃ t, step (facing (.writeWord 0x0000C#19 0x00000013#32)) = .next t) ∧
    ((facing (.writeWord 0x40008#19 7#32)).Inv ∧ ∃ t, step (facing (.writeWord 0x40008#19 7#32)) = .next t) ∧
    ((facing .reset).Inv ∧ ∃ t, step (facing .reset) = .next t) :=
  ⟨⟨small_inv _, _, rfl⟩, ⟨small_inv _, _, rfl⟩, ⟨small_inv _, _, rfl⟩⟩

theorem witness_ErrorsAreAtomic :
    (∃ t, runWord 0#32 State.reset = .next t ∧ statusErr t.status = true) ∧
    ∃ t, runWord 0x00000012#32 State.reset = .next t ∧ statusErr t.status = true := ⟨⟨_, rfl, by decide⟩, ⟨_, rfl, by decide⟩⟩

-- With CHKMIS (the corrupted string of R236), without it, and CLR.
theorem witness_SuccessStatusWord :
    (∃ t, exec (.decChr true) (input [0x12, 0x0B, 0xD0, 0xD8]) = .next t ∧ statusErr t.status = false ∧ t.misCnt ≠ 0) ∧
    (∃ t, exec .chksum State.reset = .next t ∧ statusErr t.status = false ∧ t.misCnt = 0) ∧
    ∃ t, exec .clr State.reset = .next t ∧ statusErr t.status = false :=
  ⟨⟨_, rfl, by decide, by decide⟩, ⟨_, rfl, by decide, by decide⟩, ⟨_, rfl, by decide⟩⟩

theorem witness_CommandsRaiseOnlyTheirErrors :
    ∃ t, exec (.decHs true) (input [0x00, 0x00, 0x16]) = .next t ∧ statusErr t.status = true := ⟨_, rfl, by decide⟩

theorem witness_StickyIsClearedOnlyByClrAndReset :
    (∃ s t : State, s.host = [.writeWord 0x0000C#19 0x00000006#32] ∧ step s = .next t ∧ ¬ s.noErrorRecorded ∧ t.noErrorRecorded) ∧
    ∃ s t : State, s.host = [.reset] ∧ step s = .next t ∧ ¬ s.noErrorRecorded ∧ t.noErrorRecorded :=
  ⟨⟨{ facing (.writeWord 0x0000C#19 0x00000006#32) with status := 0x153#32 }, _, rfl, rfl, by decide, by decide⟩,
    ⟨{ facing .reset with status := 0x153#32 }, _, rfl, rfl, by decide, by decide⟩⟩

theorem witness_MiscntIsWrittenByDecChrAlone :
    (∃ t, exec (.bdec true 0) State.reset = .next t ∧ statusErr t.status = true) ∧
    ∃ t, exec .chksum State.reset = .next t ∧ statusErr t.status = false ∧ ∀ sb, Instr.chksum ≠ .decChr sb :=
  ⟨⟨_, rfl, by decide⟩, ⟨_, rfl, by decide, by decide⟩⟩

theorem witness_OutLenIsWrittenByEncodesAlone :
    (∃ t, exec .chksum State.reset = .next t ∧ isEncode .chksum = false) ∧
    ∃ t, exec (.encHs true) (entries [(0, 1)]) = .next t ∧ statusErr t.status = true :=
  ⟨⟨_, rfl, rfl⟩, ⟨_, rfl, by decide⟩⟩

theorem witness_CommandsLeaveTheirInputsRegisters : ∃ t, exec .clr State.reset = .next t := ⟨_, rfl⟩

/-! The rules of the encodes: COUNT above NV; a later entry refused; the output above NB; a success with no entry and one with
entries. -/

/-- Two entries in a block of one. -/
abbrev overfull : State := State.holding (block 1 9) [(1, 0), (1, 0)]

/-- Nine entries of value 0 and width 64 in a block of nine entries and nine bytes. -/
abbrev tooLong : State := State.holding (block 9 9) (List.replicate 9 (64, 0))

theorem witness_encodes_of_too_many_entries : overfull.params.nv < overfull.count.toNat := by decide

theorem witness_BencSerializesTheEntries :
    (let s := State.holding (block 2 9) [(64, 1), (0, 0)];
      s.count.toNat ≤ s.params.nv ∧ (if (s.widthAt 1).toNat = 0 ∨ 64 < (s.widthAt 1).toNat then some (2, (s.widthAt 1).setWidth 64)
        else if 2 ^ (s.widthAt 1).toNat ≤ (s.rawAt 1).toNat then some (3, s.rawAt 1) else none) ≠ none ∧ ∀ j < 1, (if (s.widthAt j).toNat = 0 ∨ 64 < (s.widthAt j).toNat then some (2, (s.widthAt j).setWidth 64)
        else if 2 ^ (s.widthAt j).toNat ≤ (s.rawAt j).toNat then some (3, s.rawAt j) else none) = none) ∧
    (let s := tooLong;
      s.count.toNat ≤ s.params.nv ∧ (∀ k < s.count.toNat, (if (s.widthAt k).toNat = 0 ∨ 64 < (s.widthAt k).toNat then some (2, (s.widthAt k).setWidth 64)
        else if 2 ^ (s.widthAt k).toNat ≤ (s.rawAt k).toNat then some (3, s.rawAt k) else none) = none) ∧
        s.params.nb < (bitOffset (fun _ => 64) true s.count.toNat + 7) / 8) ∧
    (let s := block 1 9;
      s.count.toNat = 0 ∧ s.count.toNat ≤ s.params.nv ∧ (bitOffset (fun _ => 64) true s.count.toNat + 7) / 8 ≤ s.params.nb) ∧
    (let s := State.holding (block 1 9) [(64, 2 ^ 64 - 1)];
      s.count.toNat ≤ s.params.nv ∧ (∀ k < s.count.toNat, (if (s.widthAt k).toNat = 0 ∨ 64 < (s.widthAt k).toNat then some (2, (s.widthAt k).setWidth 64)
        else if 2 ^ (s.widthAt k).toNat ≤ (s.rawAt k).toNat then some (3, s.rawAt k) else none) = none) ∧
        (bitOffset (fun _ => 64) true s.count.toNat + 7) / 8 ≤ s.params.nb) := by decide

-- BENC's two checks of one entry at their boundaries: widths 0 and 65, and a value just too large.
theorem witness_BencSerializesTheEntries_checks :
    (State.widthAt (State.holding (block 1 9) [(0, 0)]) 0).toNat = 0 ∧
    64 < (State.widthAt (State.holding (block 1 9) [(65, 0)]) 0).toNat ∧
    2 ^ (State.widthAt (State.holding (block 1 9) [(3, 8)]) 0).toNat ≤ (State.rawAt (State.holding (block 1 9) [(3, 8)]) 0).toNat := by
  decide

theorem witness_EncHsEncodesHandshakeCodes :
    (let s := State.holding (block 2 9) [(0, 72), (0, 73)];
      s.count.toNat ≤ s.params.nv ∧ (if IsHandshake (s.rawAt 1).toNat then none else some (4, s.rawAt 1)) ≠ none ∧ ∀ j < 1, (if IsHandshake (s.rawAt j).toNat then none else some (4, s.rawAt j)) = none) ∧
    (let s := tooLong;
      s.count.toNat ≤ s.params.nv ∧ (∀ k < s.count.toNat, (if IsHandshake (s.rawAt k).toNat then none else some (4, s.rawAt k)) = none) ∧
        s.params.nb < (bitOffset (fun _ => 21) true s.count.toNat + 7) / 8) ∧
    (let s := block 1 9;
      s.count.toNat = 0 ∧ s.count.toNat ≤ s.params.nv ∧ (bitOffset (fun _ => 21) true s.count.toNat + 7) / 8 ≤ s.params.nb) ∧
    (let s := State.holding (block 3 9) [(0, 72), (0, 13), (0, 0)];
      s.count.toNat ≤ s.params.nv ∧ (∀ k < s.count.toNat, (if IsHandshake (s.rawAt k).toNat then none else some (4, s.rawAt k)) = none) ∧
        (bitOffset (fun _ => 21) true s.count.toNat + 7) / 8 ≤ s.params.nb) := by decide

theorem witness_EncVerEncodesVersions :
    (let s := State.holding (block 2 9) [(0, 1023), (0, 1024)];
      s.count.toNat ≤ s.params.nv ∧ (if (s.rawAt 1).toNat < 1024 then none else some (3, s.rawAt 1)) ≠ none ∧ ∀ j < 1, (if (s.rawAt j).toNat < 1024 then none else some (3, s.rawAt j)) = none) ∧
    (let s := tooLong;
      s.count.toNat ≤ s.params.nv ∧ (∀ k < s.count.toNat, (if (s.rawAt k).toNat < 1024 then none else some (3, s.rawAt k)) = none) ∧
        s.params.nb < (bitOffset (fun _ => 10) true s.count.toNat + 7) / 8) ∧
    (let s := block 1 9;
      s.count.toNat = 0 ∧ s.count.toNat ≤ s.params.nv ∧ (bitOffset (fun _ => 10) true s.count.toNat + 7) / 8 ≤ s.params.nb) ∧
    (let s := State.holding (block 1 9) [(0, 1023)];
      s.count.toNat ≤ s.params.nv ∧ (∀ k < s.count.toNat, (if (s.rawAt k).toNat < 1024 then none else some (3, s.rawAt k)) = none) ∧
        (bitOffset (fun _ => 10) true s.count.toNat + 7) / 8 ≤ s.params.nb) := by decide

theorem witness_EncRsEncodesStatusCodes :
    (let s := State.holding (block 2 9) [(0, 2), (0, 3)];
      s.count.toNat ≤ s.params.nv ∧ (if IsReceiveStatus (s.rawAt 1).toNat then none else some (4, s.rawAt 1)) ≠ none ∧ ∀ j < 1, (if IsReceiveStatus (s.rawAt j).toNat then none else some (4, s.rawAt j)) = none) ∧
    (let s := tooLong;
      s.count.toNat ≤ s.params.nv ∧ (∀ k < s.count.toNat, (if IsReceiveStatus (s.rawAt k).toNat then none else some (4, s.rawAt k)) = none) ∧
        s.params.nb < (bitOffset (fun _ => 9) true s.count.toNat + 7) / 8) ∧
    (let s := block 1 9;
      s.count.toNat = 0 ∧ s.count.toNat ≤ s.params.nv ∧ (bitOffset (fun _ => 9) true s.count.toNat + 7) / 8 ≤ s.params.nb) ∧
    (let s := State.holding (block 1 9) [(0, 2)];
      s.count.toNat ≤ s.params.nv ∧ (∀ k < s.count.toNat, (if IsReceiveStatus (s.rawAt k).toNat then none else some (4, s.rawAt k)) = none) ∧
        (bitOffset (fun _ => 9) true s.count.toNat + 7) / 8 ≤ s.params.nb) := by decide

theorem witness_EncChrEmbedsTheChecksum :
    (let s := State.holding (block 2 9) [(0, 255), (0, 256)];
      s.count.toNat ≤ s.params.nv ∧ (if (s.rawAt 1).toNat < 256 then none else some (3, s.rawAt 1)) ≠ none ∧ ∀ j < 1, (if (s.rawAt j).toNat < 256 then none else some (3, s.rawAt j)) = none) ∧
    (let s := tooLong;
      s.count.toNat ≤ s.params.nv ∧ (∀ k < s.count.toNat, (if (s.rawAt k).toNat < 256 then none else some (3, s.rawAt k)) = none) ∧
        s.params.nb < (bitOffset (fun _ => 12) true s.count.toNat + 7) / 8) ∧
    (let s := block 1 9;
      s.count.toNat = 0 ∧ s.count.toNat ≤ s.params.nv ∧ (bitOffset (fun _ => 12) true s.count.toNat + 7) / 8 ≤ s.params.nb) ∧
    (let s := State.holding (block 1 9) [(0, 255)];
      s.count.toNat ≤ s.params.nv ∧ (∀ k < s.count.toNat, (if (s.rawAt k).toNat < 256 then none else some (3, s.rawAt k)) = none) ∧
        (bitOffset (fun _ => 12) true s.count.toNat + 7) / 8 ≤ s.params.nb) := by decide

-- ENC.NUM refuses no operand: its second clause speaks of none.
theorem witness_EncNumReducesModulo4096 :
    (let s := tooLong;
      s.count.toNat ≤ s.params.nv ∧ s.params.nb < (bitOffset (fun _ => 12) true s.count.toNat + 7) / 8) ∧
    (let s := State.holding (block 1 9) [(0, 4096)];
      s.count.toNat ≤ s.params.nv ∧ (bitOffset (fun _ => 12) true s.count.toNat + 7) / 8 ≤ s.params.nb) := by decide

theorem witness_ChksumWritesTheNibbles :
    (let s := State.holding (block 2 9) [(0, 255), (0, 256)];
      s.count.toNat ≤ s.params.nv ∧ 256 ≤ (s.rawAt 1).toNat ∧ ∀ j < 1, (s.rawAt j).toNat < 256) ∧
    (let s := State.holding (block 2 9) [(0, 255), (0, 0)];
      s.count.toNat ≤ s.params.nv ∧ ∀ k < s.count.toNat, (s.rawAt k).toNat < 256) := by decide

/-! The rules of the decodes: IN_LEN above NB; more fields than NV; a stop bit 0 after one that is 1; a code refused after one
accepted; a success with no field and one with fields. -/

theorem witness_decodes_of_too_many_bytes :
    let s := State.fed (block 1 9) (List.replicate 10 0);
    s.params.nb < s.inLen.toNat := by decide

theorem witness_DecHsDecodesHandshakeCodes :
    (let s := State.fed (block 1 9) (List.replicate 9 0);
      s.inLen.toNat ≤ s.params.nb ∧ s.params.nv < decodeCount s.inLen.toNat 21 true) ∧
    (let s := State.fed (block 9 9) [0x00, 0x00, 0x91, 0x00, 0x02, 0x40];
      s.inLen.toNat ≤ s.params.nb ∧ decodeCount s.inLen.toNat 21 true ≤ s.params.nv ∧ 1 < decodeCount s.inLen.toNat 21 true ∧
        stopBit s 21 1 = false ∧ ∀ j < 1, stopBit s 21 j = true) ∧
    (let s := State.fed (block 9 9) [0x00, 0x00, 0x91, 0x00, 0x00, 0x2C];
      s.inLen.toNat ≤ s.params.nb ∧ decodeCount s.inLen.toNat 21 true ≤ s.params.nv ∧
        (∀ k < decodeCount s.inLen.toNat 21 true, stopBit s 21 k = true) ∧ 1 < decodeCount s.inLen.toNat 21 true ∧
        ¬ IsHandshake (payload s 21 true 1) ∧ ∀ j < 1, IsHandshake (payload s 21 true j)) ∧
    decodeCount (block 1 9).inLen.toNat 21 true = 0 ∧
    (let s := State.fed (block 9 9) [0x00, 0x00, 0x91, 0x00, 0x00, 0x6C];
      s.inLen.toNat ≤ s.params.nb ∧ 0 < decodeCount s.inLen.toNat 21 true ∧ decodeCount s.inLen.toNat 21 true ≤ s.params.nv ∧
        ∀ k < decodeCount s.inLen.toNat 21 true, stopBit s 21 k = true ∧ IsHandshake (payload s 21 true k)) := by decide

theorem witness_DecVerDecodesVersions :
    (let s := State.fed (block 1 9) (List.replicate 9 0);
      s.inLen.toNat ≤ s.params.nb ∧ s.params.nv < decodeCount s.inLen.toNat 10 true) ∧
    (let s := State.fed (block 9 9) [0x09, 0x11, 0x20];
      s.inLen.toNat ≤ s.params.nb ∧ decodeCount s.inLen.toNat 10 true ≤ s.params.nv ∧ 1 < decodeCount s.inLen.toNat 10 true ∧
        stopBit s 10 1 = false ∧ ∀ j < 1, stopBit s 10 j = true) ∧
    decodeCount (block 1 9).inLen.toNat 10 true = 0 ∧
    (let s := State.fed (block 9 9) [0x00, 0x1F, 0xFE];
      s.inLen.toNat ≤ s.params.nb ∧ 0 < decodeCount s.inLen.toNat 10 true ∧ decodeCount s.inLen.toNat 10 true ≤ s.params.nv ∧
        ∀ k < decodeCount s.inLen.toNat 10 true, stopBit s 10 k = true) := by decide

theorem witness_DecNumDecodesNumbers :
    (let s := State.fed (block 1 9) (List.replicate 9 0);
      s.inLen.toNat ≤ s.params.nb ∧ s.params.nv < decodeCount s.inLen.toNat 12 true) ∧
    (let s := State.fed (block 9 9) [0x00, 0x91, 0x04, 0x80];
      s.inLen.toNat ≤ s.params.nb ∧ decodeCount s.inLen.toNat 12 true ≤ s.params.nv ∧ 1 < decodeCount s.inLen.toNat 12 true ∧
        stopBit s 12 1 = false ∧ ∀ j < 1, stopBit s 12 j = true) ∧
    decodeCount (block 1 9).inLen.toNat 12 true = 0 ∧
    (let s := State.fed (block 9 9) [0x00, 0x01, 0xFF, 0xF8];
      s.inLen.toNat ≤ s.params.nb ∧ 0 < decodeCount s.inLen.toNat 12 true ∧ decodeCount s.inLen.toNat 12 true ≤ s.params.nv ∧
        ∀ k < decodeCount s.inLen.toNat 12 true, stopBit s 12 k = true) := by decide

theorem witness_DecChrExtractsAndVerifies :
    (let s := State.fed (block 1 9) (List.replicate 9 0);
      s.inLen.toNat ≤ s.params.nb ∧ s.params.nv < decodeCount s.inLen.toNat 12 true) ∧
    (let s := State.fed (block 9 9) [0x12, 0x0B, 0xD0, 0x90];
      s.inLen.toNat ≤ s.params.nb ∧ decodeCount s.inLen.toNat 12 true ≤ s.params.nv ∧ 1 < decodeCount s.inLen.toNat 12 true ∧
        stopBit s 12 1 = false ∧ ∀ j < 1, stopBit s 12 j = true) ∧
    decodeCount (block 1 9).inLen.toNat 12 true = 0 ∧
    (let s := State.fed (block 9 9) [0x12, 0x0B, 0xD0, 0xD8];
      s.inLen.toNat ≤ s.params.nb ∧ 0 < decodeCount s.inLen.toNat 12 true ∧ decodeCount s.inLen.toNat 12 true ≤ s.params.nv ∧
        ∀ k < decodeCount s.inLen.toNat 12 true, stopBit s 12 k = true) := by decide

theorem witness_DecRsDecodesStatusCodes :
    (let s := State.fed (block 1 9) (List.replicate 9 0);
      s.inLen.toNat ≤ s.params.nb ∧ s.params.nv < decodeCount s.inLen.toNat 9 true) ∧
    (let s := State.fed (block 9 9) [0x00, 0x30, 0x08];
      s.inLen.toNat ≤ s.params.nb ∧ decodeCount s.inLen.toNat 9 true ≤ s.params.nv ∧ 1 < decodeCount s.inLen.toNat 9 true ∧
        stopBit s 9 1 = false ∧ ∀ j < 1, stopBit s 9 j = true) ∧
    (let s := State.fed (block 9 9) [0x00, 0x30, 0x1C];
      s.inLen.toNat ≤ s.params.nb ∧ decodeCount s.inLen.toNat 9 true ≤ s.params.nv ∧
        (∀ k < decodeCount s.inLen.toNat 9 true, stopBit s 9 k = true) ∧ 1 < decodeCount s.inLen.toNat 9 true ∧
        ¬ IsReceiveStatus (payload s 9 true 1) ∧ ∀ j < 1, IsReceiveStatus (payload s 9 true j)) ∧
    decodeCount (block 1 9).inLen.toNat 9 true = 0 ∧
    (let s := State.fed (block 9 9) [0x00, 0x10, 0x14];
      s.inLen.toNat ≤ s.params.nb ∧ 0 < decodeCount s.inLen.toNat 9 true ∧ decodeCount s.inLen.toNat 9 true ≤ s.params.nv ∧
        ∀ k < decodeCount s.inLen.toNat 9 true, stopBit s 9 k = true ∧ IsReceiveStatus (payload s 9 true k)) := by decide

theorem witness_BdecExtractsTheFields :
    (let s := State.fed (block 1 9) (List.replicate 9 0);
      s.inLen.toNat ≤ s.params.nb ∧ s.params.nv < decodeCount s.inLen.toNat 7 true) ∧
    (let s := State.fed (block 9 9) [0x03, 0x02];
      s.inLen.toNat ≤ s.params.nb ∧ decodeCount s.inLen.toNat 7 true ≤ s.params.nv ∧ 1 < decodeCount s.inLen.toNat 7 true ∧
        stopBit s 7 1 = false ∧ ∀ j < 1, stopBit s 7 j = true) ∧
    decodeCount (block 1 9).inLen.toNat 7 true = 0 ∧
    (let s := State.fed (block 9 9) [0x01, 0xFF];
      s.inLen.toNat ≤ s.params.nb ∧ 0 < decodeCount s.inLen.toNat 7 true ∧ decodeCount s.inLen.toNat 7 true ≤ s.params.nv ∧
        ∀ k < decodeCount s.inLen.toNat 7 true, stopBit s 7 k = true) := by decide

theorem witness_BdecExtractsTheFields_widths :
    (0 = 0 ∨ 64 < 0) ∧ (65 = 0 ∨ 64 < 65) ∧ (1 ≤ 1 ∧ 1 ≤ 64) ∧ (1 ≤ 64 ∧ 64 ≤ 64) ∧
    (let s := State.fed (block 9 9) [0x1F, 0xFF, 0xFF, 0xFF, 0xFF, 0xFF, 0xFF, 0xFF, 0xF0];
      decodeCount s.inLen.toNat 64 true = 1 ∧ stopBit s 64 0 = true) := by decide

/-! The round trips: the chunk of an encode copied into IBUF. -/

/-- The state of a receiver that was given the chunk of `t`. -/
abbrev receiver (t : State) : State := { t with inLen := t.outLen, ibuf := t.obuf }

-- Width 21, whose padding is short, and width 3 without stop bits, whose padding is not (R161).
theorem witness_RoundTripExactlyWhenPaddingIsShort :
    (let s := entries [(21, 72)];
      let t := after (.benc true) s;
      s.params.wf ∧ (∀ k < s.count.toNat, (s.widthAt k).toNat = 21) ∧ statusErr t.status = false ∧ ChunkCopied t (receiver t) ∧
        8 * ((s.count.toNat * (21 + true.toNat) + 7) / 8) - s.count.toNat * (21 + true.toNat) < 21 + true.toNat) ∧
    (let s := entries [(3, 5)];
      let t := after (.benc false) s;
      s.params.wf ∧ (∀ k < s.count.toNat, (s.widthAt k).toNat = 3) ∧ statusErr t.status = false ∧ ChunkCopied t (receiver t) ∧
        ¬ 8 * ((s.count.toNat * (3 + false.toNat) + 7) / 8) - s.count.toNat * (3 + false.toNat) < 3 + false.toNat) := by decide

theorem witness_RoundTripExactlyWhenPaddingIsShort_exec :
    exec (.benc true) (entries [(21, 72)]) = .next (after (.benc true) (entries [(21, 72)])) ∧
    exec (.benc false) (entries [(3, 5)]) = .next (after (.benc false) (entries [(3, 5)])) := ⟨rfl, rfl⟩

theorem witness_TypedValuesRoundTrip :
    ∀ p ∈ [(Instr.encHs true, Instr.decHs true), (.encVer true, .decVer true), (.encNum true, .decNum true), (.encRs true, .decRs true)],
      (entries [(0, 0), (0, 0)]).params.wf ∧ statusErr (after p.1 (entries [(0, 0), (0, 0)])).status = false ∧
      ChunkCopied (after p.1 (entries [(0, 0), (0, 0)])) (receiver (after p.1 (entries [(0, 0), (0, 0)]))) := by decide

theorem witness_TypedValuesRoundTrip_exec :
    ∀ i : Instr, exec i (entries [(0, 0), (0, 0)]) = .next (after i (entries [(0, 0), (0, 0)])) := by intro i; cases i <;> rfl

theorem witness_CharacterStringsVerifyThemselves :
    let s := entries [(0, 0x41), (0, 0x42)];
    let t := after (.encChr true) s;
    s.params.wf ∧ statusErr t.status = false ∧ ChunkCopied t (receiver t) := by decide

theorem witness_CharacterStringsVerifyThemselves_exec :
    exec (.encChr true) (entries [(0, 0x41), (0, 0x42)]) = .next (after (.encChr true) (entries [(0, 0x41), (0, 0x42)])) := rfl

-- 00 01 22 with its front bit and its back bit set (80 01 23 in 95_test_vectors.md).
theorem witness_PaddingBitsAreNotValidated :
    let s := input [0x00, 0x01, 0x22];
    let m : Memory := [(0, 0x80), (1, 0x01), (2, 0x23)];
    decodeShape (.bdec true 21) = some (true, 21) ∧ decodeShape (.decHs true) = some (true, 21) ∧ m ≠ s.ibuf ∧
    ∀ p, fieldStart s 21 true 0 ≤ p → p < fieldStart s 21 true (decodeCount s.inLen.toNat 21 true) →
      bitAt (State.ibufAt { s with ibuf := m }) p = bitAt s.ibufAt p := by decide

theorem witness_PaddingBitsAreNotValidated_exec :
    ∃ t, exec (.bdec true 21) (input [0x00, 0x01, 0x22]) = .next t := ⟨_, rfl⟩

theorem witness_PaddingIsSymmetric : 0 < 8 * (frame [true]).length ∧ 7 < 8 * (frame [true]).length := by decide

theorem witness_AlignedChunksCompose :
    (List.replicate 8 true).length % 8 = 0 ∧ (List.replicate 8 false).length % 8 = 0 ∧ (List.replicate 7 true).length % 8 = 7 := by decide

theorem witness_StreamChecksumFollowsItsFormula : 0 < [0x41#8].length ∧ 1 < [0x41#8, 0x42#8].length := by decide

theorem witness_EmbeddingIsABijection : embed 0x41#8 6#4 = 0x905#12 := by decide

theorem witness_SentinelsAreNotValues :
    (let s := entries [(0, 72), (0, 2 ^ 64 - 42)];
      1 < s.count.toNat ∧ s.count.toNat ≤ s.params.nv ∧ (s.rawAt 1).toNat = 2 ^ 64 - 42) ∧
    (let s := entries [(0, 2), (0, 2 ^ 64 - 153)];
      1 < s.count.toNat ∧ s.count.toNat ≤ s.params.nv ∧ (s.rawAt 1).toNat = 2 ^ 64 - 153) ∧
    (let t := after (.decHs true) (input [0x00, 0x00, 0x02]);
      State.reset.params.wf ∧ statusErr t.status = false ∧ 0 < t.count.toNat) ∧
    (let t := after (.decRs true) (input [0x00, 0x28]);
      statusErr t.status = false ∧ 0 < t.count.toNat) := by decide

theorem witness_SentinelsAreNotValues_exec :
    (∃ t, exec (.decHs true) (input [0x00, 0x00, 0x02]) = .next t) ∧ ∃ t, exec (.decRs true) (input [0x00, 0x28]) = .next t :=
  ⟨⟨_, rfl⟩, ⟨_, rfl⟩⟩

-- Two states that differ in everything a command does not read.
theorem witness_ResultsDependOnInputsAlone :
    let s := entries [(0, 72)];
    let u : State := { s with cmd := 9, status := 0x153, errIdx := 1, errVal := 2, outLen := 3, misCnt := 4, obuf := [(0, 5)] };
    s.SameInputs u ∧ (∃ t, exec (.encHs true) s = .next t ∧ statusErr t.status = false) ∧ ∃ v, exec (.encHs true) u = .next v :=
  ⟨⟨rfl, rfl, rfl, rfl, rfl, rfl⟩, ⟨_, rfl, by decide⟩, ⟨_, rfl⟩⟩

theorem witness_WrittenInputsMakeDrawsIrrelevant :
    (entries [(21, 72)]).InputsWritten (.benc true) ∧ (entries [(0, 72)]).InputsWritten (.encHs true) ∧
    (entries [(0, 72)]).InputsWritten .chksum ∧ (input [0x00, 0x01, 0x22]).InputsWritten (.bdec true 21) ∧
    (input [0x00, 0x01, 0x22]).InputsWritten (.decHs true) ∧ ∃ t, exec (.benc true) (entries [(21, 72)]) = .next t := by
  refine ⟨?_, ?_, ?_, ?_, ?_, ⟨_, rfl⟩⟩ <;> simp only [State.InputsWritten] <;> decide

end Sys2Proof.Tests
end

section
/-! PROOFS. Words and the fields of STATUS; what every command leaves alone (10_state.md R36, R41 to R43, R46, R47). -/

namespace Sys2Proof.Machine

/-! ## Words -/

/-- The low `k` bits of a word, widened again, are the word under a mask. -/
theorem setWidth_setWidth_eq_and (w : Word) {k : Nat} (hk : k ≤ 32) :
    (w.setWidth k).setWidth 32 = w &&& BitVec.ofNat 32 (2 ^ k - 1) := by
  have hlt : 2 ^ k - 1 < 2 ^ 32 := by have := Nat.pow_le_pow_right (n := 2) (by decide) hk; omega
  apply BitVec.eq_of_toNat_eq
  rw [BitVec.toNat_setWidth, BitVec.toNat_setWidth, BitVec.toNat_and, BitVec.toNat_ofNat, Nat.mod_eq_of_lt hlt,
    Nat.and_two_pow_sub_one_eq_mod, Nat.mod_eq_of_lt (Nat.lt_of_le_of_lt (Nat.mod_le _ _) w.isLt)]

/-- A number within a capacity stays within it in a 32-bit register. -/
theorem toNat_ofNat_le {n c : Nat} (h : n ≤ c) : (BitVec.ofNat 32 n).toNat ≤ c := by
  rw [BitVec.toNat_ofNat]; exact (Nat.mod_le _ _).trans h

/-- The high half of a 64-bit number, as a number. -/
theorem extractLsb'_high_half (v : BitVec 64) : v.extractLsb' 32 32 = BitVec.ofNat 32 (v.toNat / 2 ^ 32) := by
  apply BitVec.eq_of_toNat_eq
  rw [BitVec.extractLsb'_toNat, BitVec.toNat_ofNat, Nat.shiftRight_eq_div_pow]

/-! ## STATUS

Before the first command no field is set (R37). -/

@[simp] theorem statusDone_zero : statusDone 0#32 = false := rfl
@[simp] theorem statusErr_zero : statusErr 0#32 = false := rfl
@[simp] theorem statusChkmis_zero : statusChkmis 0#32 = false := rfl
@[simp] theorem statusEcode_zero : statusEcode 0#32 = 0#4 := by decide

/-! A command's STATUS word has its reserved bits and BUSY 0 (R301, R302). -/

@[simp] theorem errorStatus_reserved (c : ErrCode) : errorStatus c &&& 0xFFFFFE04#32 = 0 := by cases c <;> decide

@[simp] theorem successStatus_reserved (m k : Bool) : successStatus m k &&& 0xFFFFFE04#32 = 0 := by
  cases m <;> cases k <;> decide

/-- Below STICKY the word of a success shows CHKMIS alone (R301). -/
theorem successStatus_low_byte (m k : Bool) : successStatus m k &&& 0xFF#32 = 0x00000001#32 ||| flagAt 3 m := by
  cases m <;> cases k <;> decide

/-! ## What the commands leave alone -/

/-- A command keeps everything but the results it may write (R36, R41, R46). -/
theorem exec_untouched {i : Instr} {s t : State} (h : exec i s = .next t) : Untouched s t := by
  rcases exec_cases h with ⟨e, -, rfl⟩ | ⟨-, rfl⟩
  · exact ⟨rfl, rfl, rfl, rfl, rfl, rfl, rfl⟩
  · obtain ⟨hparams, hcmd, hinLen, hibuf, hdraw, hhost, hrdata, -⟩ := execEffect_frame i s
    exact ⟨hparams, hcmd, hinLen, hibuf, hdraw, hhost, hrdata⟩

/-- A command leaves its word in CMD (R36). -/
theorem exec_cmd {i : Instr} {s t : State} (h : exec i s = .next t) : t.cmd = s.cmd := by
  obtain ⟨-, hcmd, -⟩ := exec_untouched h
  exact hcmd

/-- Every effect but DEC.CHR's leaves MISCNT 0 (R43). -/
theorem execEffect_misCnt {i : Instr} (s : State) (hi : ∀ sb, i ≠ .decChr sb) : (execEffect i s).misCnt = 0 := by
  cases i with
  | decChr sb => exact absurd rfl (hi sb)
  | _ => rfl

/-- No effect but an encode's writes OUT_LEN or OBUF (R42, R47). -/
theorem execEffect_output {i : Instr} (s : State) (hi : isEncode i = false) :
    (execEffect i s).outLen = s.outLen ∧ (execEffect i s).obuf = s.obuf := by
  cases i with
  | benc _ | encHs _ | encVer _ | encNum _ | encChr _ | encRs _ => cases hi
  | _ => exact ⟨rfl, rfl⟩

/-- Every command word ends in a next state that still has the word in CMD (R36, R300). -/
theorem runWord_next (c : Word) (s : State) : ∃ t, runWord c s = .next t ∧ t.cmd = s.cmd := by
  cases hd : decode c with
  | ok i =>
    have hx : runWord c s = exec i s := by rw [runWord, hd]
    obtain ⟨t, ht⟩ : ∃ t, exec i s = .next t := ⟨_, exec_eq i s⟩
    exact ⟨t, hx.trans ht, exec_cmd ht⟩
  | error e => exact ⟨_, runWord_of_illegal s (by rw [hd]; rfl), rfl⟩

/-- Settles O29: the error and the effect of a command are framed alike. -/
theorem commandsLeaveTheirInputsRegisters : Obligations.CommandsLeaveTheirInputsRegisters :=
  fun _ _ _ h => exec_untouched h

/-- Settles O27: an error changes no MISCNT, and ERR tells it from a success. -/
theorem miscntIsWrittenByDecChrAlone : Obligations.MiscntIsWrittenByDecChrAlone := by
  intro i s t h
  rcases exec_cases h with ⟨e, -, rfl⟩ | ⟨-, rfl⟩
  · exact ⟨fun _ => rfl, fun hok => by simp at hok⟩
  · exact ⟨fun herr => by simp at herr, fun _ hi => execEffect_misCnt s hi⟩

/-- Settles O28: an error changes neither, and no effect but an encode's does. -/
theorem outLenIsWrittenByEncodesAlone : Obligations.OutLenIsWrittenByEncodesAlone := by
  intro i s t h hcase
  rcases exec_cases h with ⟨e, -, rfl⟩ | ⟨-, rfl⟩
  · exact ⟨rfl, rfl⟩
  · rcases hcase with hi | herr
    · exact execEffect_output s hi
    · simp at herr

end Sys2Proof.Machine
end

section
/-! PROOFS. The fields an encode writes out, and what a command's result depends on (10_state.md R48, R49). -/

namespace Sys2Proof.Machine

/-! ## The fields an encode writes out -/

/-- The fields `(w_i, r_i)` an encode command puts into its chunk (R155, R193, R235); none for a command that is no encode. -/
def encodedFields (i : Instr) (s : State) : List (Nat × Nat) :=
  match i with
  | .benc _ => entryFields s
  | .encHs _ => typedFields .handshake s
  | .encVer _ => typedFields .version s
  | .encNum _ => typedFields .twelveBitNumber s
  | .encChr _ => wireText (operandText s)
  | .encRs _ => typedFields .receiveStatus s
  | _ => []

/-- The stop flag S of an encode command (R111). -/
def encodeStop : Instr → Bool
  | .benc s | .encHs s | .encVer s | .encNum s | .encChr s | .encRs s => s
  | _ => false

/-- The bytes of an encode's chunk (R151). -/
def encodedBytes (i : Instr) (s : State) : Nat := ceilDiv (totalBits ((encodedFields i s).map (·.1)) (encodeStop i)) 8

/-- An encode's effect on the output is its fields, framed. -/
theorem execEffect_encode {i : Instr} (s : State) (hi : isEncode i = true) :
    execEffect i s = { encodeFields (encodedFields i s) (encodeStop i) s with x := (execEffect i s).x } := by
  cases i with
  | benc _ | encHs _ | encVer _ | encNum _ | encChr _ | encRs _ => rfl
  | _ => cases hi

/-- A chunk has as many bytes as its fields need. -/
theorem length_frame_serialize (fields : List (Nat × Nat)) (sb : Bool) :
    (frame (serialize fields sb)).length = ceilDiv (totalBits (fields.map (·.1)) sb) 8 := by
  rw [length_frame, length_serialize]

/-- What an encode without an error has passed (R305). -/
theorem encodeError_eq_none {check : Nat → Option CmdError} {L : Nat} {s : State} :
    encodeError check L s = none ↔
      s.count.toNat ≤ s.params.nv ∧ (∀ k < s.count.toNat, check k = none) ∧ L ≤ s.params.nb := by
  rw [encodeError, Option.or_eq_none_iff, Option.or_eq_none_iff, checkCapacity_eq_none, checkCapacity_eq_none,
    firstError_eq_none]

/-- An encode without an error has at most NV entries. -/
theorem count_le_of_encodeError {check : Nat → Option CmdError} {L : Nat} {s : State} (h : encodeError check L s = none) :
    s.count.toNat ≤ s.params.nv := by
  obtain ⟨hcount, -, -⟩ := encodeError_eq_none.1 h
  exact hcount

/-- An encode without an error has at most NB bytes. -/
theorem bytes_le_of_encodeError {check : Nat → Option CmdError} {L : Nat} {s : State} (h : encodeError check L s = none) :
    L ≤ s.params.nb := by
  obtain ⟨-, -, hbytes⟩ := encodeError_eq_none.1 h
  exact hbytes

/-! The bytes each command checks against NB are those of its fields. -/

theorem totalBits_replicate (n w : Nat) (sb : Bool) : totalBits (List.replicate n w) sb = n * (w + sb.toNat) := by
  simp [totalBits]

theorem entryBytes_eq (sb : Bool) (s : State) :
    entryBytes sb s = ceilDiv (totalBits ((entryFields s).map (·.1)) sb) 8 := by
  rw [entryBytes, entryFields, range_map_fst]

theorem typedBytes_eq (ty : ProtoType) (sb : Bool) (s : State) :
    typedBytes ty sb s = ceilDiv (totalBits ((typedFields ty s).map (·.1)) sb) 8 := by
  have hw : (typedFields ty s).map (·.1) = List.replicate s.count.toNat (wireWidth ty) := by
    simp [typedFields, State.raws, Function.comp_def, List.map_const']
  rw [typedBytes, hw, totalBits_replicate]

theorem characterBytes_eq (sb : Bool) (s : State) :
    typedBytes .character sb s = ceilDiv (totalBits ((wireText (operandText s)).map (·.1)) sb) 8 := by
  have hw : (wireText (operandText s)).map (·.1) = List.replicate s.count.toNat 12 := by
    refine List.eq_replicate_iff.2 ⟨?_, ?_⟩
    · simp [wireText, length_streamChecksum, length_operandText]
    · simp only [wireText, List.map_map, List.mem_map]
      rintro _ ⟨r, -, rfl⟩
      rfl
  rw [typedBytes, hw, totalBits_replicate, wireWidth]

/-- An encode without an error has a chunk that OBUF holds. -/
theorem encodedBytes_le {i : Instr} {s : State} (hi : isEncode i = true) (hok : execError i s = none) :
    encodedBytes i s ≤ s.params.nb := by
  cases i with
  | benc sb => exact (entryBytes_eq sb s).symm.trans_le (bytes_le_of_encodeError hok)
  | encChr sb => exact (characterBytes_eq sb s).symm.trans_le (bytes_le_of_encodeError hok)
  | encHs sb | encVer sb | encNum sb | encRs sb =>
    exact (typedBytes_eq _ sb s).symm.trans_le (bytes_le_of_encodeError hok)
  | _ => cases hi

/-! ## What a command's result depends on (R48, R49) -/

/-- `s` with the contents `u` has in every register and buffer that no command reads, and with the host's side of `u`. -/
def State.withResults (s u : State) : State :=
  { s with
    cmd := u.cmd, status := u.status, errIdx := u.errIdx, errVal := u.errVal, outLen := u.outLen, misCnt := u.misCnt
    obuf := u.obuf, host := u.host, rdata := u.rdata }

/-- States with the same inputs differ in what no command reads. -/
theorem State.SameInputs.eq_withResults {s u : State} (h : s.SameInputs u) : u = s.withResults u := by
  obtain ⟨hparams, hcount, hinLen, hx, hibuf, hdraw⟩ := h
  exact State.ext hparams.symm rfl rfl rfl rfl hcount.symm hinLen.symm rfl rfl hx.symm hibuf.symm rfl hdraw.symm rfl rfl

/-- Whether a command fails, and how, is decided by its inputs. -/
theorem execError_withResults (i : Instr) (s u : State) : execError i (s.withResults u) = execError i s := by
  cases i <;> rfl

/-- The value buffer, COUNT and MISCNT a success leaves are decided by its inputs. -/
theorem execEffect_withResults (i : Instr) (s u : State) :
    (execEffect i (s.withResults u)).x = (execEffect i s).x ∧
    (execEffect i (s.withResults u)).count = (execEffect i s).count ∧
    (execEffect i (s.withResults u)).misCnt = (execEffect i s).misCnt := by
  cases i <;> exact ⟨rfl, rfl, rfl⟩

/-- The fields an encode writes out are decided by its inputs. -/
theorem encodedFields_withResults (i : Instr) (s u : State) : encodedFields i (s.withResults u) = encodedFields i s := by
  cases i <;> rfl

/-- OUT_LEN after an encode without an error. -/
theorem execEffect_encode_outLen {i : Instr} (s : State) (hi : isEncode i = true) :
    (execEffect i s).outLen = BitVec.ofNat 32 (encodedBytes i s) := by rw [execEffect_encode s hi]; rfl

/-- OBUF below OUT_LEN after an encode without an error: the chunk's bytes. -/
theorem execEffect_encode_obufAt {i : Instr} (s : State) (hi : isEncode i = true) {j : Nat}
    (hj : j < (execEffect i s).outLen.toNat) :
    (execEffect i s).obufAt j = (frame (serialize (encodedFields i s) (encodeStop i))).getD j 0 := by
  rw [execEffect_encode_outLen s hi] at hj
  have hlen : j < (frame (serialize (encodedFields i s) (encodeStop i))).length := by
    rw [length_frame_serialize]
    exact hj.trans_le (toNat_ofNat_le (Nat.le_refl _))
  have hstore : (execEffect i s).obufAt j = (encodeFields (encodedFields i s) (encodeStop i) s).obufAt j := by
    rw [execEffect_encode s hi]; rfl
  rw [hstore, encodeFields, obufAt_storeEncode, if_pos hlen]

/-- The output of an encode is decided by its inputs. -/
theorem execEffect_encode_withResults {i : Instr} (s u : State) (hi : isEncode i = true) :
    (execEffect i (s.withResults u)).outLen = (execEffect i s).outLen ∧
    ∀ j < (execEffect i s).outLen.toNat, (execEffect i (s.withResults u)).obufAt j = (execEffect i s).obufAt j := by
  have hlen : (execEffect i (s.withResults u)).outLen = (execEffect i s).outLen := by
    rw [execEffect_encode_outLen _ hi, execEffect_encode_outLen _ hi, encodedBytes, encodedBytes,
      encodedFields_withResults]
  refine ⟨hlen, fun j hj => ?_⟩
  rw [execEffect_encode_obufAt s hi hj, execEffect_encode_obufAt _ hi (hlen ▸ hj), encodedFields_withResults]

/-- Settles O53: the two runs end alike, and the error or the effect they end with is decided by the inputs. -/
theorem resultsDependOnInputsAlone : Obligations.ResultsDependOnInputsAlone := by
  intro i s u t v hsame hs hu
  rw [hsame.eq_withResults] at hu
  have herr := execError_withResults i s u
  rcases exec_cases hs with ⟨e, he, rfl⟩ | ⟨hok, rfl⟩
  · rw [exec_of_error (herr.trans he)] at hu
    cases hu
    exact ⟨rfl, rfl, rfl, rfl, rfl, fun h => by simp at h⟩
  · rw [exec_of_ok (herr.trans hok)] at hu
    cases hu
    obtain ⟨hx, hcount, hmis⟩ := execEffect_withResults i s u
    refine ⟨hx.symm, hcount.symm, rfl, rfl, ?_, fun _ => ⟨hmis.symm, fun hi => ?_⟩⟩
    · simp only [State.done_status, successStatus_low_byte, hmis]
    · obtain ⟨hlen, hbytes⟩ := execEffect_encode_withResults s u hi
      exact ⟨hlen.symm, fun j hj => (hbytes j hj).symm⟩

end Sys2Proof.Machine
end

section
/-! PROOFS. A host's accesses to the registers and to the entries' reserved bits (10_state.md R30 to R43, R50). -/

namespace Sys2Proof.Machine

/-! ## Register accesses -/

/-- Settles O8: the step of an empty list is the state itself. -/
theorem idleBlockKeepsItsState : Obligations.IdleBlockKeepsItsState := by
  intro s h
  rw [step, h]

/-- A read at a register's offset returns the register (R33 to R43). -/
theorem wordReadGives_reg (s : State) (r : RegName) : WordReadGives s (BitVec.ofNat 19 r.offset) (readReg s r) :=
  fun _ hs => step_readWord (locateWord_reg s.params r) hs

/-- Settles O11: each offset is its register's; only the halves of ERRVAL are written differently there. -/
theorem registerReadsFollowTheMap : Obligations.RegisterReadsFollowTheMap := by
  intro s
  have hlo : readReg s .errValLo = BitVec.ofNat 32 s.errVal.toNat := rfl
  have hhi : readReg s .errValHi = BitVec.ofNat 32 (s.errVal.toNat / 2 ^ 32) := extractLsb'_high_half s.errVal
  exact ⟨wordReadGives_reg s .id, wordReadGives_reg s .capNv, wordReadGives_reg s .capNb, wordReadGives_reg s .cmd,
    wordReadGives_reg s .status, wordReadGives_reg s .errIdx, hlo ▸ wordReadGives_reg s .errValLo,
    hhi ▸ wordReadGives_reg s .errValHi, wordReadGives_reg s .count, wordReadGives_reg s .inLen,
    wordReadGives_reg s .outLen, wordReadGives_reg s .misCnt⟩

/-- A write to CMD's offset stores the word and runs it (R36). -/
theorem step_cmd {s : State} {w : Word} {rest : List HostEvent} (hs : s.host = .writeWord 0x0000C#19 w :: rest) :
    step s = runWord w { s with host := rest, rdata := none, cmd := w } :=
  step_writeCmd (locateWord_reg s.params .cmd) hs

/-- A write to CMD ends in a next state that has the word in CMD. -/
theorem step_cmd_next {s : State} {w : Word} {rest : List HostEvent} (hs : s.host = .writeWord 0x0000C#19 w :: rest) :
    ∃ t, step s = .next t ∧ t.cmd = w := by
  rw [step_cmd hs]
  exact runWord_next w _

/-- Settles O6: the word placed is a write to CMD, and a 32-bit number is its own residue. -/
theorem fetchedWordRuns : Obligations.FetchedWordRuns := by
  intro s w hw
  have hmod : w % 2 ^ 32 = w := Nat.mod_eq_of_lt hw
  constructor
  · have hstep := step_cmd (State.withFetchWord_host s 32 w)
    rw [hmod] at hstep
    exact hstep
  · rw [decodeTableWord, hmod]

/-- Settles O5: the step on a write to CMD runs the word, legal or illegal. -/
theorem cmdWriteStoresAndExecutes : Obligations.CmdWriteStoresAndExecutes := by
  refine ⟨fun s c rest hs => ⟨fun i hi => ?_, fun hillegal => ?_, step_cmd_next hs⟩,
    fun s rest hs => wordReadGives_reg s .cmd rest hs, rfl⟩
  · rw [step_cmd hs, runWord, hi]
  · rw [step_cmd hs, runWord_of_illegal _ hillegal, raise_errorAt]
    rfl

/-- A write at the offset of a register other than CMD stores what `writeReg` says. -/
theorem step_writeReg {s : State} {r : RegName} (hr : r ≠ .cmd) {w : Word} {rest : List HostEvent}
    (hs : s.host = .writeWord (BitVec.ofNat 19 r.offset) w :: rest) :
    step s = .next (writeReg { s with host := rest, rdata := none } w r) :=
  step_writeWord (locateWord_reg s.params r) (by simpa using hr) hs

/-- The registers a host's write changes (R36, R40, R41). -/
def RegName.writable : RegName → Bool
  | .cmd | .count | .inLen => true
  | _ => false

/-- A write to any other register is ignored (R50). -/
theorem writeReg_of_not_writable (s : State) (w : Word) {r : RegName} (hr : r.writable = false) : writeReg s w r = s := by
  cases r with
  | cmd | count | inLen => cases hr
  | _ => rfl

/-- The offsets of the read-only registers (R33 to R43, R50). -/
theorem exists_readOnly_of_mem {a : Addr}
    (ha : a ∈ [0x00000#19, 0x00004#19, 0x00008#19, 0x00010#19, 0x00014#19, 0x00018#19, 0x0001C#19, 0x00028#19, 0x0002C#19]) :
    ∃ r : RegName, a = BitVec.ofNat 19 r.offset ∧ r.writable = false := by
  simp only [List.mem_cons, List.not_mem_nil, or_false] at ha
  rcases ha with rfl | rfl | rfl | rfl | rfl | rfl | rfl | rfl | rfl
  exacts [⟨.id, rfl, rfl⟩, ⟨.capNv, rfl, rfl⟩, ⟨.capNb, rfl, rfl⟩, ⟨.status, rfl, rfl⟩, ⟨.errIdx, rfl, rfl⟩,
    ⟨.errValLo, rfl, rfl⟩, ⟨.errValHi, rfl, rfl⟩, ⟨.outLen, rfl, rfl⟩, ⟨.misCnt, rfl, rfl⟩]

/-- A write to a read-only register is accepted and changes nothing (R50). -/
theorem step_write_readOnly {s : State} {r : RegName} (hr : r.writable = false) {w : Word} {rest : List HostEvent}
    (hs : s.host = .writeWord (BitVec.ofNat 19 r.offset) w :: rest) : step s = .next { s with host := rest, rdata := none } := by
  have hcmd : r ≠ .cmd := by rintro rfl; cases hr
  rw [step_writeReg hcmd hs, writeReg_of_not_writable _ _ hr]

/-- The reserved bits of STATUS read 0 (R50). -/
theorem State.Inv.status_reserved {s : State} (h : s.Inv) : s.status &&& 0xFFFFFE00#32 = 0 := by
  have hmask : 0xFFFFFE00#32 = 0xFFFFFE04#32 &&& 0xFFFFFE00#32 := by decide
  rw [hmask, ← BitVec.and_assoc, h.reserved]
  exact BitVec.zero_and

/-- A 32-bit write leaves the parameters and the host's events. -/
theorem writeWord_frame (s : State) (w : Word) (g : WordTarget) :
    (writeWord s w g).params = s.params ∧ (writeWord s w g).host = s.host := by
  cases g with
  | reg r => cases r <;> exact ⟨rfl, rfl⟩
  | _ => simp [writeWord]

/-- A write and then a read of one word, not CMD's, return what a read there gives after the write, whatever the state. -/
theorem step_write_then_read {s : State} {a : Addr} {g : WordTarget} {w v : Word} {rest : List HostEvent}
    (hg : locateWord s.params a = .ok g) (hcmd : g ≠ .reg .cmd) (hv : ∀ s : State, readWord (writeWord s w g) g = v)
    (hs : s.host = .writeWord a w :: .readWord a :: rest) :
    ∃ t, step s = .next t ∧ ∃ u, step t = .next u ∧ u.rdata = some (.word v) := by
  refine ⟨_, step_writeWord hg hcmd hs, ?_⟩
  obtain ⟨hparams, hhost⟩ := writeWord_frame { s with host := .readWord a :: rest, rdata := none } w g
  exact ⟨_, step_readWord (by rw [hparams]; exact hg) hhost, congrArg (fun v => some (BusData.word v)) (hv _)⟩

/-- The WIDTH word takes bits 7:0 only (R50, R82). -/
theorem readWord_writeWord_width (s : State) (w : Word) (i : Nat) :
    readWord (writeWord s w (.width i)) (.width i) = w &&& 0xFF#32 := by
  have hmask : (w.setWidth 8).setWidth 32 = w &&& 0xFF#32 := setWidth_setWidth_eq_and w (by decide)
  simp [readWord, writeWord, State.widthAt, Sparse.find_put, hmask]

/-- The AUX word takes bits 4:0 only (R50, R82). -/
theorem readWord_writeWord_aux (s : State) (w : Word) (i : Nat) :
    readWord (writeWord s w (.aux i)) (.aux i) = w &&& 0x1F#32 := by
  have hmask : (w.setWidth 5).setWidth 32 = w &&& 0x1F#32 := setWidth_setWidth_eq_and w (by decide)
  simp [readWord, writeWord, State.auxAt, Sparse.find_put, hmask]

/-- Settles O12, register by register; the reserved bits of an entry's words are cut off by the write. -/
theorem readOnlyAndReservedBits : Obligations.ReadOnlyAndReservedBits := by
  refine ⟨fun s a w rest ha hs => ?_, fun s h => h.status_reserved, fun s i w rest hp hi => ⟨fun hs => ?_, fun hs => ?_⟩,
    fun s w rest => ⟨fun hs => ?_, fun hs => ?_, fun hs => step_cmd_next hs⟩⟩
  · obtain ⟨r, rfl, hr⟩ := exists_readOnly_of_mem ha
    exact step_write_readOnly hr hs
  · exact step_write_then_read (locateWord_entry hp hi (k := 2) (by decide)) nofun
      (fun s => readWord_writeWord_width s w i) hs
  · exact step_write_then_read (locateWord_entry hp hi (k := 3) (by decide)) nofun
      (fun s => readWord_writeWord_aux s w i) hs
  · exact step_writeReg (r := .count) nofun hs
  · exact step_writeReg (r := .inLen) nofun hs

end Sys2Proof.Machine
end

section
/-! PROOFS. The invariant: it holds at reset, and every step keeps it (10_state.md R37; 60_exceptions.md R301 to R304). -/

namespace Sys2Proof.Machine

/-! ## The invariant -/

/-- The part of the invariant that is not about STATUS: legal parameters, canonical buffers, and the result registers within the
capacities. -/
structure State.Fits (s : State) : Prop where
  params : s.params.wf
  rawLo : Sparse.wf s.params.nv s.x.rawLo
  rawHi : Sparse.wf s.params.nv s.x.rawHi
  width : Sparse.wf s.params.nv s.x.width
  aux : Sparse.wf s.params.nv s.x.aux
  ibuf : Memory.wf s.params.nb s.ibuf
  obuf : Memory.wf s.params.nb s.obuf
  outLen : s.outLen.toNat ≤ s.params.nb
  misCnt : s.misCnt.toNat ≤ s.params.nv

variable {s : State}

theorem State.Inv.fits (h : s.Inv) : s.Fits := { h with }

theorem State.Inv.afterEvent (h : s.Inv) : s.afterEvent.Inv := { h with }

theorem State.Inv.after_answer (h : s.Inv) (d : BusData) : (s.answer d).Inv := { h with }

theorem State.Fits.after_encodeFields (h : s.Fits) {fields : List (Nat × Nat)} {sb : Bool}
    (hL : ceilDiv (totalBits (fields.map (·.1)) sb) 8 ≤ s.params.nb) : (encodeFields fields sb s).Fits :=
  { h with
    obuf := Sparse.wf_putAll h.obuf ((length_frame_serialize fields sb).trans_le hL)
    outLen := toNat_ofNat_le hL
    misCnt := Nat.zero_le _ }

theorem State.Fits.after_storeAux (h : s.Fits) {auxs : List (BitVec 5)} (hl : auxs.length ≤ s.params.nv) :
    (s.storeAux auxs).Fits :=
  { h with aux := Sparse.wf_putAll h.aux hl }

theorem State.Fits.after_storeDecode (h : s.Fits) (w : Nat) {vals : List (BitVec 64)} {auxs : List (BitVec 5)} {mis : Nat}
    (hv : vals.length ≤ s.params.nv) (ha : auxs.length ≤ s.params.nv) (hm : mis ≤ s.params.nv) :
    (s.storeDecode w vals auxs mis).Fits :=
  { h with
    rawLo := Sparse.wf_putAll h.rawLo (by simpa using hv)
    rawHi := Sparse.wf_putAll h.rawHi (by simpa using hv)
    width := Sparse.wf_putAll h.width (by simpa using hv)
    aux := Sparse.wf_putAll h.aux ha
    misCnt := toNat_ofNat_le hm }

/-! ### Commands -/

/-- The nibbles of the operands are as many as COUNT says. -/
theorem length_checksumAux (s : State) :
    ((streamChecksum (operandText s)).map (auxOf false)).length = s.count.toNat := by
  rw [List.length_map, length_streamChecksum, length_operandText]

theorem State.Fits.after_decodeValues (h : s.Fits) {w : Nat} {sb : Bool}
    (hn : decodeCount s.inLen.toNat w sb ≤ s.params.nv) : (decodeValues w sb s).Fits :=
  h.after_storeDecode w (by simpa using hn) (by simpa using hn) (Nat.zero_le _)

theorem State.Fits.after_storeText (h : s.Fits) {wire : List (BitVec 12)} (hl : wire.length ≤ s.params.nv) :
    (storeText wire s).Fits := by
  have ha : (List.zipWith verifiedAux (wire.map extractNibble) (streamChecksum (wire.map extractCode))).length ≤
      s.params.nv := by simpa [length_streamChecksum] using hl
  exact h.after_storeDecode 12 (by simpa using hl) ha (List.countP_le_length.trans ha)

/-- The effect of a command that passed its checks keeps every buffer canonical and every result within its capacity. -/
theorem State.Fits.after_execEffect {i : Instr} (h : s.Fits) (hok : execError i s = none) : (execEffect i s).Fits := by
  cases i with
  | benc _ | encHs _ | encVer _ | encNum _ | encRs _ =>
    have hL := encodedBytes_le rfl hok
    exact h.after_encodeFields hL
  | encChr _ =>
    have hn := count_le_of_encodeError hok
    have hL := encodedBytes_le rfl hok
    exact (h.after_encodeFields hL).after_storeAux ((length_checksumAux s).trans_le hn)
  | bdec _ _ => exact h.after_decodeValues (decodeCount_le_of_ok (Option.or_eq_none_iff.1 hok).2)
  | decHs _ | decVer _ | decNum _ | decRs _ => exact h.after_decodeValues (decodeCount_le_of_ok hok)
  | decChr _ => exact h.after_storeText (by simpa using decodeCount_le_of_ok hok)
  | chksum =>
    have hn := checkCapacity_eq_none.1 (Option.or_eq_none_iff.1 hok).1
    exact { h.after_storeAux ((length_checksumAux s).trans_le hn) with misCnt := Nat.zero_le _ }
  | clr => exact { h with misCnt := Nat.zero_le _ }

/-! The codes of R303: 1 to 6, and 1 is `E_CMD` alone. -/

theorem ErrCode.code_eq_one {c : ErrCode} : c.code = 1#4 ↔ c = .cmd := by cases c <;> decide
theorem ErrCode.code_ne_zero (c : ErrCode) : c.code ≠ 0#4 := by cases c <;> decide
theorem ErrCode.code_le (c : ErrCode) : c.code.toNat ≤ 6 := by cases c <;> decide

/-- An error keeps the invariant, if `E_CMD` with its word is raised exactly for an illegal word in CMD (R302 to R304). -/
theorem State.Fits.raise_inv (h : s.Fits) {e : CmdError} (hcode : e.code = .cmd ↔ (decode s.cmd).toOption = none)
    (hword : e.code = .cmd → e.idx = 0 ∧ e.val = s.cmd.setWidth 64) : (s.raise e).Inv :=
  { h with
    reserved := errorStatus_reserved e.code
    ecode := by simpa using e.code.code_le
    err := by simp [ErrCode.code_ne_zero]
    sticky := by simp
    fresh := by simp
    chkmis := by simp
    noError := by simp
    cmdError := by simpa [ErrCode.code_eq_one] using And.intro hcode hword }

/-- A success keeps the invariant, if the word in CMD is legal (R301). -/
theorem State.Fits.done_inv (h : s.Fits) (hlegal : (decode s.cmd).toOption ≠ none) : s.done.Inv :=
  { h with
    reserved := successStatus_reserved _ _
    ecode := by simp
    err := by simp
    sticky := by simp
    fresh := by simp
    chkmis := by simp
    noError := fun _ => ⟨rfl, rfl⟩
    cmdError := by simpa using hlegal }

/-- No command ends in `E_CMD`: that is an illegal word's error (R303). -/
theorem execError_ne_cmd {i : Instr} {e : CmdError} (h : execError i s = some e) : e.code ≠ .cmd := by
  intro hc
  have hmem := execError_code h
  rw [hc] at hmem
  cases i <;> simp [raisable, ErrCode.code] at hmem

/-- Running the word in CMD establishes the invariant: nothing of it but the capacities was needed before. -/
theorem State.Fits.runWord_inv {t : State} (h : s.Fits) (hrun : runWord s.cmd s = .next t) : t.Inv := by
  rcases runWord_cases hrun with ⟨i, hdec, hexec⟩ | ⟨hillegal, rfl⟩
  · have hlegal : (decode s.cmd).toOption ≠ none := by simp [hdec, Except.toOption]
    rcases exec_cases hexec with ⟨e, he, rfl⟩ | ⟨hok, rfl⟩
    · exact h.raise_inv (iff_of_false (execError_ne_cmd he) hlegal) fun hc => absurd hc (execError_ne_cmd he)
    · have hcmd : (execEffect i s).done.cmd = s.cmd := exec_cmd hexec
      rw [State.done_cmd] at hcmd
      exact (h.after_execEffect hok).done_inv (by rwa [hcmd])
  · exact h.raise_inv (iff_of_true rfl hillegal) fun _ => ⟨rfl, rfl⟩

/-! ### Accesses and reset -/

theorem State.Inv.after_setIbuf (h : s.Inv) {j : Nat} (hj : j < s.params.nb) (b : Byte) : (s.setIbuf j b).Inv :=
  { h with ibuf := Sparse.wf_put h.ibuf hj b }

/-- A 32-bit write keeps the invariant, but for one to CMD, which runs a command. -/
theorem State.Inv.after_writeWord (h : s.Inv) {a : Addr} {g : WordTarget} (hg : locateWord s.params a = .ok g)
    (hcmd : g ≠ .reg .cmd) (w : Word) : (writeWord s w g).Inv := by
  rcases locateWord_bounds hg with ⟨r, rfl⟩ | ⟨i, hi, rfl | rfl | rfl | rfl⟩ | ⟨j, hj, rfl | rfl⟩
  · cases r with
    | cmd => exact absurd rfl hcmd
    | _ => exact { h with }
  · exact { h with rawLo := Sparse.wf_put h.rawLo hi _ }
  · exact { h with rawHi := Sparse.wf_put h.rawHi hi _ }
  · exact { h with width := Sparse.wf_put h.width hi _ }
  · exact { h with aux := Sparse.wf_put h.aux hi _ }
  · have h0 := h.after_setIbuf (j := j) (by omega) (byteOfWord w 0)
    have h1 := h0.after_setIbuf (j := j + 1) (by simp; omega) (byteOfWord w 1)
    have h2 := h1.after_setIbuf (j := j + 2) (by simp; omega) (byteOfWord w 2)
    exact h2.after_setIbuf (j := j + 3) (by simpa using hj) (byteOfWord w 3)
  · exact h

theorem State.Inv.after_writeByte (h : s.Inv) {a : Addr} {g : ByteTarget} (hg : locateByte s.params a = .ok g) (b : Byte) :
    (writeByte s b g).Inv := by
  obtain ⟨j, hj, rfl | rfl⟩ := locateByte_bounds hg
  · exact h.after_setIbuf hj b
  · exact h

@[simp] theorem State.resetWith_status (p : Params) (k : Nat) : (State.resetWith p k).status = 0 := rfl

/-- The state right after a reset meets the invariant, in every legal configuration. -/
theorem State.resetWith_inv {p : Params} (hp : p.wf) (k : Nat) : (State.resetWith p k).Inv where
  params := hp
  rawLo := Sparse.wf_nil _
  rawHi := Sparse.wf_nil _
  width := Sparse.wf_nil _
  aux := Sparse.wf_nil _
  ibuf := Sparse.wf_nil _
  obuf := Sparse.wf_nil _
  outLen := Nat.zero_le _
  misCnt := Nat.zero_le _
  reserved := by simp
  ecode := by simp
  err := by simp
  sticky := by simp
  fresh := fun _ => ⟨rfl, rfl⟩
  chkmis := by simp
  noError := fun _ => ⟨rfl, rfl⟩
  cmdError := by simp

theorem State.Inv.after_resetBlock (h : s.Inv) : s.resetBlock.Inv := { State.resetWith_inv h.params (s.drawNo + 1) with }

/-- Settles O20: every register is 0 and every buffer empty. -/
theorem resetMeetsTheInvariant : Obligations.ResetMeetsTheInvariant :=
  ⟨State.resetWith_inv (by decide) 0, fun _ k hp => State.resetWith_inv hp k⟩

/-- Settles O21: a read and a write keep the invariant part by part, a reset sets it up again, and a write to CMD runs its word,
which sets it up from the capacities alone. -/
theorem stepKeepsTheInvariant : Obligations.StepKeepsTheInvariant := by
  intro s t h hstep
  have h' := h.afterEvent
  rcases step_cases hstep with ⟨-, rfl⟩ | ⟨_, _, _, -, -, rfl⟩ | ⟨_, _, _, -, -, rfl⟩ |
    ⟨_, w, _, _, -, hg, hcmd, rfl⟩ | ⟨_, w, _, -, -, hrun⟩ | ⟨_, b, _, _, -, hg, rfl⟩ | ⟨_, -, rfl⟩
  · exact h
  · exact h'.after_answer _
  · exact h'.after_answer _
  · exact h'.after_writeWord hg hcmd w
  · have hfits : State.Fits { s.afterEvent with cmd := w } := { h'.fits with }
    exact hfits.runWord_inv hrun
  · exact h'.after_writeByte hg b
  · exact h'.after_resetBlock

end Sys2Proof.Machine
end

section
/-! PROOFS. The bus: which accesses are refused, and what every step leaves alone (20_memory.md R81 to R86, R90, R91). -/

namespace Sys2Proof.Machine

/-! ## The map -/

/-- Each of the twelve words of the register region is a register (R81). -/
theorem exists_regAtWord {k : Nat} (hk : k < 12) : ∃ r, regAtWord k = some r := by
  interval_cases k <;> exact ⟨_, rfl⟩

/-- Whether an access reaches something is decided check by check. -/
theorem exists_ok_ite {α ε : Type} {c : Prop} [Decidable c] {x y : Except ε α} :
    (∃ g, (if c then x else y) = .ok g) ↔ if c then ∃ g, x = .ok g else ∃ g, y = .ok g := by
  split <;> rfl

/-- A misaligned 32-bit access reaches nothing (R85). -/
theorem locateWord_misaligned (p : Params) {a : Addr} (h4 : a.toNat % 4 ≠ 0) : ¬ ∃ g, locateWord p a = .ok g := by
  simp only [locateWord, if_pos h4, exists_ok_ite]
  split_ifs <;> nofun

/-- An aligned 32-bit access reaches something exactly where the map has its four bytes, region by region (R81, R85). -/
theorem locateWord_aligned {p : Params} (hp : p.wf) {a : Addr} (h4 : a.toNat % 4 = 0) :
    (∃ g, locateWord p a = .ok g) ↔ WordAccepted p a.toNat := by
  obtain ⟨-, hnv, -, hnb⟩ := hp
  have hal : ¬ a.toNat % 4 ≠ 0 := not_not.2 h4
  by_cases hreg : inRegisters a.toNat
  · obtain ⟨r, hr⟩ := exists_regAtWord (k := a.toNat / 4) (by omega)
    simp only [locateWord, if_pos hreg, if_neg hal, hr]
    exact iff_of_true ⟨_, rfl⟩ ⟨h4, .inl hreg⟩
  simp only [locateWord, if_neg hreg, if_neg hal, exists_ok_ite]
  unfold inValueBuffer inIbuf inObuf valueBase ibufBase obufBase
  split_ifs with hx hi hj ho hk
  · exact iff_of_true ⟨_, rfl⟩ ⟨h4, .inr (.inl hx)⟩
  · exact iff_of_true ⟨_, rfl⟩ ⟨h4, .inr (.inr (.inl ⟨hi.1, hj⟩))⟩
  · exact iff_of_false nofun (by omega)
  · exact iff_of_true ⟨_, rfl⟩ ⟨h4, .inr (.inr (.inr ⟨ho.1, hk⟩))⟩
  · exact iff_of_false nofun (by omega)
  · exact iff_of_false nofun (by omega)

/-- The 32-bit accesses that reach something (R81, R85). -/
theorem exists_locateWord_iff {p : Params} (hp : p.wf) {a : Addr} :
    (∃ g, locateWord p a = .ok g) ↔ WordAccepted p a.toNat := by
  by_cases h4 : a.toNat % 4 = 0
  · exact locateWord_aligned hp h4
  · exact iff_of_false (locateWord_misaligned p h4) fun h => h4 h.1

/-- The 8-bit accesses that reach something: the registers and the value buffer lie below both byte buffers (R81, R84). -/
theorem exists_locateByte_iff {p : Params} (hp : p.wf) {a : Addr} :
    (∃ g, locateByte p a = .ok g) ↔ ByteAccepted p a.toNat := by
  obtain ⟨-, hnv, -, hnb⟩ := hp
  simp only [locateByte, exists_ok_ite]
  unfold inValueBuffer inIbuf inObuf valueBase ibufBase obufBase
  split_ifs with hlow hi ho
  · exact iff_of_false nofun (by omega)
  · exact iff_of_true ⟨_, rfl⟩ (.inl hi)
  · exact iff_of_true ⟨_, rfl⟩ (.inr ho)
  · exact iff_of_false nofun (by omega)

/-! ## Accepted and refused events -/

/-- An event is accepted when its access reaches something; a reset always is (R86, R340). -/
def EventAccepted (p : Params) : HostEvent → Prop
  | .readWord a | .writeWord a _ => ∃ g, locateWord p a = .ok g
  | .readByte a | .writeByte a _ => ∃ g, locateByte p a = .ok g
  | .reset => True

/-- What is not located is in error. -/
theorem exists_error_of_not_ok {α ε : Type} {x : Except ε α} (h : ¬ ∃ g, x = .ok g) : ∃ f, x = .error f := by
  cases x with
  | ok g => exact absurd ⟨g, rfl⟩ h
  | error f => exact ⟨f, rfl⟩

section
variable {s t : State} {e : HostEvent} {rest : List HostEvent}

/-- The step on an accepted event answers a next state. -/
theorem step_of_accepted (hs : s.host = e :: rest) (h : EventAccepted s.params e) : ∃ t, step s = .next t := by
  cases e with
  | readWord a => obtain ⟨g, hg⟩ := h; exact ⟨_, step_readWord hg hs⟩
  | readByte a => obtain ⟨g, hg⟩ := h; exact ⟨_, step_readByte hg hs⟩
  | writeByte a b => obtain ⟨g, hg⟩ := h; exact ⟨_, step_writeByte hg hs⟩
  | writeWord a w =>
    obtain ⟨g, hg⟩ := h
    by_cases hcmd : g = .reg .cmd
    · subst hcmd
      obtain ⟨t, ht, -⟩ := runWord_next w { s with host := rest, rdata := none, cmd := w }
      exact ⟨t, (step_writeCmd hg hs).trans ht⟩
    · exact ⟨_, step_writeWord hg hcmd hs⟩
  | reset => exact ⟨_, by rw [step, hs]; rfl⟩

/-- The step on any other event is a fault (R86). -/
theorem step_of_not_accepted (hs : s.host = e :: rest) (h : ¬ EventAccepted s.params e) : ∃ f, step s = .fault f := by
  suffices hrefused : ∃ f, hostEvent e s.afterEvent = .refused f by
    obtain ⟨f, hf⟩ := hrefused
    exact ⟨f, by rw [step, hs]; simp only [hf]⟩
  cases e with
  | readWord a | writeWord a w | readByte a | writeByte a b =>
    obtain ⟨f, hf⟩ := exists_error_of_not_ok h
    exact ⟨f, by simp only [hostEvent, State.afterEvent_params, hf]⟩
  | reset => exact absurd trivial h

/-- A step is a fault exactly when its event is not accepted. -/
theorem step_fault_iff (hs : s.host = e :: rest) : (∃ f, step s = .fault f) ↔ ¬ EventAccepted s.params e := by
  refine ⟨fun ⟨f, hf⟩ h => ?_, step_of_not_accepted hs⟩
  obtain ⟨t, ht⟩ := step_of_accepted hs h
  rw [ht] at hf
  cases hf

/-- The event of a step that answers a next state was accepted. -/
theorem accepted_of_step (hs : s.host = e :: rest) (h : step s = .next t) : EventAccepted s.params e := by
  by_contra hn
  obtain ⟨f, hf⟩ := step_of_not_accepted hs hn
  rw [hf] at h
  cases h

end

/-- Settles O10: a step faults exactly when its access reaches nothing. -/
theorem accessesAreRefusedOutsideTheMap : Obligations.AccessesAreRefusedOutsideTheMap := by
  intro s a rest hp
  have hword := not_congr (exists_locateWord_iff hp (a := a))
  have hbyte := not_congr (exists_locateByte_iff hp (a := a))
  exact ⟨fun hs => (step_fault_iff hs).trans hword, fun w hs => (step_fault_iff hs).trans hword,
    fun hs => (step_fault_iff hs).trans hbyte, fun b hs => (step_fault_iff hs).trans hbyte⟩

/-- Settles O16: the step on an accepted read is its answer. -/
theorem readsHaveNoSideEffects : Obligations.ReadsHaveNoSideEffects := by
  intro s t a rest hs h
  rcases hs with hs | hs
  · obtain ⟨g, hg⟩ := accepted_of_step hs h
    rw [step_readWord hg hs] at h
    cases h
    exact ⟨_, rfl⟩
  · obtain ⟨g, hg⟩ := accepted_of_step hs h
    rw [step_readByte hg hs] at h
    cases h
    exact ⟨_, rfl⟩

/-! ## What every step leaves alone -/

/-- An 8-bit write leaves the parameters and the host's events. -/
theorem writeByte_frame (s : State) (b : Byte) (g : ByteTarget) :
    (writeByte s b g).params = s.params ∧ (writeByte s b g).host = s.host := by
  cases g <;> exact ⟨rfl, rfl⟩

/-- So does the command that a word stands for, legal or illegal. -/
theorem runWord_frame {c : Word} {s t : State} (h : runWord c s = .next t) : t.params = s.params ∧ t.host = s.host := by
  rcases runWord_cases h with ⟨i, -, hexec⟩ | ⟨-, rfl⟩
  · obtain ⟨hparams, -, -, -, -, hhost, -⟩ := exec_untouched hexec
    exact ⟨hparams, hhost⟩
  · exact ⟨rfl, rfl⟩

/-- Settles O9: the event is taken off the list before it acts, and no event's action touches the list or the parameters. -/
theorem stepTakesTheFirstEvent : Obligations.StepTakesTheFirstEvent := by
  intro s t h
  suffices hframe : t.params = s.params ∧ t.host = s.host.tail from hframe.symm
  rcases step_cases h with ⟨hs, rfl⟩ | ⟨_, _, _, -, -, rfl⟩ | ⟨_, _, _, -, -, rfl⟩ | ⟨_, w, g, _, -, -, -, rfl⟩ |
    ⟨_, _, _, -, -, hrun⟩ | ⟨_, b, g, _, -, -, rfl⟩ | ⟨_, -, rfl⟩
  · exact ⟨rfl, by rw [hs, List.tail_nil]⟩
  · exact ⟨rfl, rfl⟩
  · exact ⟨rfl, rfl⟩
  · exact writeWord_frame s.afterEvent w g
  · exact runWord_frame hrun
  · exact writeByte_frame s.afterEvent b g
  · exact ⟨rfl, rfl⟩

end Sys2Proof.Machine
end

section
/-! PROOFS. A host's accesses to the entries and to the byte buffers (20_memory.md R82, R83, R87). -/

namespace Sys2Proof.Machine

/-- A 32-bit read of a located word returns that word. -/
theorem wordReadGives_of_locate {s : State} {a : Addr} {g : WordTarget} {v : Word} (hg : locateWord s.params a = .ok g)
    (hv : readWord s g = v) : WordReadGives s a v :=
  fun _ hs => hv ▸ step_readWord hg hs

/-- A cell's value after a write of one cell: the written one there, and the old value or draw elsewhere. -/
theorem Sparse.getD_find_put {α : Type} (m : Sparse α) (a : Nat) (v : α) (b : Nat) (draw : α) :
    ((m.put a v).find b).getD draw = if b = a then v else (m.find b).getD draw := by
  rw [Sparse.find_put]
  by_cases hb : b = a
  · rw [if_pos hb.symm, if_pos hb, Option.getD_some]
  · rw [if_neg (Ne.symm hb), if_neg hb]

/-! ## The entries -/

section
variable (s : State) (w : Word) (i j : Nat)

/-! The host reads and writes the two halves of `raw` apart (R82). -/

theorem setWidth_rawAt : (s.rawAt i).setWidth 32 = s.rawLoAt i := BitVec.setWidth_append_eq_right
theorem rawAt_low : (s.rawAt i).extractLsb' 0 32 = s.rawLoAt i := BitVec.extractLsb'_append_eq_right
theorem rawAt_high : (s.rawAt i).extractLsb' 32 32 = s.rawHiAt i := BitVec.extractLsb'_append_eq_left

/-! Each word of an entry, after a write to it. -/

theorem rawAt_writeWord_rawLo :
    (writeWord s w (.rawLo i)).rawAt j = if j = i then (s.rawAt i).extractLsb' 32 32 ++ w else s.rawAt j := by
  have hlo : (writeWord s w (.rawLo i)).rawLoAt j = if j = i then w else s.rawLoAt j := Sparse.getD_find_put ..
  have hhi : (writeWord s w (.rawLo i)).rawHiAt j = s.rawHiAt j := rfl
  rw [State.rawAt, hlo, hhi, rawAt_high]
  split
  · subst j; rfl
  · rfl

theorem rawAt_writeWord_rawHi :
    (writeWord s w (.rawHi i)).rawAt j = if j = i then w ++ (s.rawAt i).extractLsb' 0 32 else s.rawAt j := by
  have hhi : (writeWord s w (.rawHi i)).rawHiAt j = if j = i then w else s.rawHiAt j := Sparse.getD_find_put ..
  have hlo : (writeWord s w (.rawHi i)).rawLoAt j = s.rawLoAt j := rfl
  rw [State.rawAt, hlo, hhi, rawAt_low]
  split
  · subst j; rfl
  · rfl

theorem widthAt_writeWord_width :
    (writeWord s w (.width i)).widthAt j = if j = i then w.setWidth 8 else s.widthAt j := Sparse.getD_find_put ..

theorem auxAt_writeWord_aux :
    (writeWord s w (.aux i)).auxAt j = if j = i then w.setWidth 5 else s.auxAt j := Sparse.getD_find_put ..

end

/-- Settles O13: each word is located, and a write to it changes the reads of its own field alone. -/
theorem entryWordsReadAndWrite : Obligations.EntryWordsReadAndWrite := by
  intro s i hp hi
  have hloc {k : Nat} (hk : k < 4) := locateWord_entry hp hi hk
  have hhi : s.rawHiAt i = BitVec.ofNat 32 ((s.rawAt i).toNat / 2 ^ 32) := by rw [← rawAt_high, extractLsb'_high_half]
  refine ⟨wordReadGives_of_locate (hloc (k := 0) (by decide)) (setWidth_rawAt s i).symm,
    wordReadGives_of_locate (hloc (k := 1) (by decide)) hhi, wordReadGives_of_locate (hloc (k := 2) (by decide)) rfl,
    wordReadGives_of_locate (hloc (k := 3) (by decide)) rfl, fun w rest k hk hs => ?_⟩
  have hstep (hcmd : entryWord i k ≠ .reg .cmd) := step_writeWord (hloc hk) hcmd hs
  match k, hk with
  | 0, _ =>
    exact ⟨_, hstep nofun, rfl, fun j hj => ⟨(rawAt_writeWord_rawLo _ w i j).trans (if_neg hj), rfl, rfl⟩,
      (rawAt_writeWord_rawLo _ w i i).trans (if_pos rfl), rfl, rfl⟩
  | 1, _ =>
    exact ⟨_, hstep nofun, rfl, fun j hj => ⟨(rawAt_writeWord_rawHi _ w i j).trans (if_neg hj), rfl, rfl⟩,
      (rawAt_writeWord_rawHi _ w i i).trans (if_pos rfl), rfl, rfl⟩
  | 2, _ =>
    exact ⟨_, hstep nofun, rfl, fun j hj => ⟨rfl, (widthAt_writeWord_width _ w i j).trans (if_neg hj), rfl⟩,
      rfl, (widthAt_writeWord_width _ w i i).trans (if_pos rfl), rfl⟩
  | 3, _ =>
    exact ⟨_, hstep nofun, rfl, fun j hj => ⟨rfl, rfl, (auxAt_writeWord_aux _ w i j).trans (if_neg hj)⟩,
      rfl, rfl, (auxAt_writeWord_aux _ w i i).trans (if_pos rfl)⟩

/-! ## The byte buffers -/

/-- `IBUF` after a write of one byte. -/
theorem State.ibufAt_setIbuf (s : State) (j : Nat) (b : Byte) (k : Nat) :
    (s.setIbuf j b).ibufAt k = if k = j then b else s.ibufAt k := Sparse.getD_find_put ..

/-- Settles O14: each byte is located, and a write to IBUF is `setIbuf`. -/
theorem byteBufferBytesReadAndWrite : Obligations.ByteBufferBytesReadAndWrite := by
  intro s j b rest hp hj
  have hi := locateByte_ibuf hp hj
  have ho := locateByte_obuf hp hj
  exact ⟨step_readByte hi, step_readByte ho, step_writeByte ho,
    fun hs => ⟨_, step_writeByte hi hs, rfl, State.ibufAt_setIbuf _ j b⟩⟩

/-- A concatenation as a number. -/
theorem toNat_append_eq_add {m n : Nat} (x : BitVec m) (y : BitVec n) : (x ++ y).toNat = x.toNat * 2 ^ n + y.toNat := by
  rw [BitVec.toNat_append, ← Nat.shiftLeft_add_eq_or_of_lt y.isLt, Nat.shiftLeft_eq]

/-- A word as the number of its four bytes (R87). -/
theorem packBytes_eq (b0 b1 b2 b3 : Byte) :
    packBytes b0 b1 b2 b3 = BitVec.ofNat 32 (b0.toNat + b1.toNat * 2 ^ 8 + b2.toNat * 2 ^ 16 + b3.toNat * 2 ^ 24) := by
  have hbytes : (packBytes b0 b1 b2 b3).toNat = b0.toNat + b1.toNat * 2 ^ 8 + b2.toNat * 2 ^ 16 + b3.toNat * 2 ^ 24 := by
    simp only [packBytes, toNat_append_eq_add]
    omega
  rw [← hbytes, BitVec.ofNat_toNat, BitVec.setWidth_eq]

/-- A byte of a word as a number (R87). -/
theorem byteOfWord_eq (w : Word) (k : Nat) : byteOfWord w k = BitVec.ofNat 8 (w.toNat / 2 ^ (8 * k)) := by
  apply BitVec.eq_of_toNat_eq
  rw [byteOfWord, BitVec.extractLsb'_toNat, BitVec.toNat_ofNat, Nat.shiftRight_eq_div_pow]

/-- IBUF after a 32-bit write: the word's four bytes at rising indexes, and nothing else changed (R87). -/
theorem ibufAt_writeWord_ibuf (s : State) (w : Word) (j k : Nat) :
    (writeWord s w (.ibuf j)).ibufAt k =
      if k = j then BitVec.ofNat 8 w.toNat
      else if k = j + 1 then BitVec.ofNat 8 (w.toNat / 2 ^ 8)
      else if k = j + 2 then BitVec.ofNat 8 (w.toNat / 2 ^ 16)
      else if k = j + 3 then BitVec.ofNat 8 (w.toNat / 2 ^ 24)
      else s.ibufAt k := by
  have hfirst : byteOfWord w 0 = BitVec.ofNat 8 w.toNat := by rw [byteOfWord_eq, Nat.mul_zero, pow_zero, Nat.div_one]
  simp only [writeWord, State.ibufAt_setIbuf, hfirst, byteOfWord_eq, Nat.reduceMul]
  by_cases h0 : k = j
  · simp [h0]
  by_cases h1 : k = j + 1
  · simp [h1]
  by_cases h2 : k = j + 2
  · simp [h2]
  simp only [if_neg h0, if_neg h1, if_neg h2]

/-- Settles O15: each aligned word is located; a read packs its four bytes and a write stores the word's four. -/
theorem byteBufferWordsAreLittleEndian : Obligations.ByteBufferWordsAreLittleEndian := by
  intro s j w rest hp h4 hj
  have hi := locateWord_ibuf hp h4 hj
  have ho := locateWord_obuf hp h4 hj
  exact ⟨wordReadGives_of_locate hi (packBytes_eq ..), wordReadGives_of_locate ho (packBytes_eq ..),
    step_writeWord ho nofun, fun hs => ⟨_, step_writeWord hi nofun hs, rfl, ibufAt_writeWord_ibuf _ w j⟩⟩

end Sys2Proof.Machine
end

section
/-! PROOFS. Command words: the fields of a word and the word of the fields, decoding and encoding, the words without a command
(30_encoding.md R111 to R118). -/

namespace Sys2Proof.Machine

/-! ## A word and its fields (R111, R118) -/

/-- The word of fields within their sizes is their sum (R118). -/
theorem toNat_wordOf {op t w : Nat} (s : Bool) (hop : op < 16) (ht : t < 8) (hw : w < 256) :
    (wordOf op s t w).toNat = op + s.toNat * 2 ^ 4 + t * 2 ^ 8 + w * 2 ^ 16 := by
  have hs := s.toNat_lt
  rw [wordOf, BitVec.toNat_ofNat, Nat.mod_eq_of_lt (by omega)]

/-- The decoder reads each field back from the word of the fields. -/
theorem decode_wordOf {op t w : Nat} (s : Bool) (hop : op < 16) (ht : t < 8) (hw : w < 256) :
    decode (wordOf op s t w) = decodeFields op s t w := by
  have hs := s.toNat_lt
  have hflag : (bitsAt (wordOf op s t w) 4 1 == 1) = s := by
    have : bitsAt (wordOf op s t w) 4 1 = s.toNat := by rw [bitsAt, toNat_wordOf s hop ht hw]; omega
    rw [this]; cases s <;> rfl
  have hfields : bitsAt (wordOf op s t w) 0 4 = op ∧ bitsAt (wordOf op s t w) 8 3 = t ∧ bitsAt (wordOf op s t w) 16 8 = w := by
    simp only [bitsAt, toNat_wordOf s hop ht hw]; omega
  have hreserved : bitsAt (wordOf op s t w) 5 3 = 0 ∧ bitsAt (wordOf op s t w) 11 5 = 0 ∧ bitsAt (wordOf op s t w) 24 8 = 0 := by
    simp only [bitsAt, toNat_wordOf s hop ht hw]; omega
  obtain ⟨hopcode, htype, hwidth⟩ := hfields
  rw [decode, if_pos hreserved, hopcode, hflag, htype, hwidth]

/-- One bit of a word, as a number. -/
theorem bitsAt_one_eq (c : Word) (lo : Nat) : bitsAt c lo 1 = 0 ∨ bitsAt c lo 1 = 1 := Nat.mod_two_eq_zero_or_one _

/-- A word whose reserved bits are 0 is the word of its fields. -/
theorem wordOf_bitsAt {c : Word} (h : bitsAt c 5 3 = 0 ∧ bitsAt c 11 5 = 0 ∧ bitsAt c 24 8 = 0) :
    wordOf (bitsAt c 0 4) (bitsAt c 4 1 == 1) (bitsAt c 8 3) (bitsAt c 16 8) = c := by
  have hflag : (bitsAt c 4 1 == 1).toNat = bitsAt c 4 1 := by
    rcases bitsAt_one_eq c 4 with hb | hb <;> rw [hb] <;> rfl
  have hsum : bitsAt c 0 4 + bitsAt c 4 1 * 2 ^ 4 + bitsAt c 8 3 * 2 ^ 8 + bitsAt c 16 8 * 2 ^ 16 = c.toNat := by
    simp only [bitsAt] at h ⊢
    omega
  rw [wordOf, hflag, hsum, BitVec.ofNat_toNat, BitVec.setWidth_eq]

/-! ## Decoding and encoding -/

/-- The decoder undoes the encoder. -/
theorem decode_encode {i : Instr} (h : i.wf = true) : decode (encode i) = .ok i := by
  cases i with
  | bdec s w => exact decode_wordOf s (by decide) (by decide) (of_decide_eq_true h)
  | benc s | encHs s | encVer s | encNum s | encChr s | encRs s | decHs s | decVer s | decNum s | decChr s | decRs s =>
    exact decode_wordOf s (by decide) (by decide) (by decide)
  | chksum | clr => exact decode_wordOf false (by decide) (by decide) (by decide)

theorem requireZero_eq_ok {allZero : Bool} {i j : Instr} : requireZero allZero i = .ok j ↔ allZero = true ∧ i = j := by
  cases allZero <;> simp [requireZero]

theorem decodeTyped_eq_ok {command : ProtoType → Instr} {t w : Nat} {i : Instr} :
    decodeTyped command t w = .ok i ↔ w = 0 ∧ ∃ ty, ProtoType.ofCode t = some ty ∧ command ty = i := by
  rw [decodeTyped]
  cases ProtoType.ofCode t with
  | none => simp
  | some ty => by_cases hw : w = 0 <;> simp [hw]

/-- The five type codes (R114). -/
theorem ofCode_eq_some {t : Nat} {ty : ProtoType} (h : ProtoType.ofCode t = some ty) :
    (t = 0 ∧ ty = .handshake) ∨ (t = 1 ∧ ty = .version) ∨ (t = 2 ∧ ty = .twelveBitNumber) ∨ (t = 3 ∧ ty = .character) ∨
      (t = 4 ∧ ty = .receiveStatus) := by
  match t with
  | 0 | 1 | 2 | 3 | 4 => cases h; simp
  | _ + 5 => cases h

theorem encode_encOf {t : Nat} {ty : ProtoType} (s : Bool) (h : ProtoType.ofCode t = some ty) :
    encode (encOf s ty) = wordOf 3 s t 0 := by
  rcases ofCode_eq_some h with ⟨rfl, rfl⟩ | ⟨rfl, rfl⟩ | ⟨rfl, rfl⟩ | ⟨rfl, rfl⟩ | ⟨rfl, rfl⟩ <;> rfl

theorem encode_decOf {t : Nat} {ty : ProtoType} (s : Bool) (h : ProtoType.ofCode t = some ty) :
    encode (decOf s ty) = wordOf 4 s t 0 := by
  rcases ofCode_eq_some h with ⟨rfl, rfl⟩ | ⟨rfl, rfl⟩ | ⟨rfl, rfl⟩ | ⟨rfl, rfl⟩ | ⟨rfl, rfl⟩ <;> rfl

theorem wf_encOf (s : Bool) (ty : ProtoType) : (encOf s ty).wf = true := by cases ty <;> rfl

theorem wf_decOf (s : Bool) (ty : ProtoType) : (decOf s ty).wf = true := by cases ty <;> rfl

/-- The command of some fields is well formed, and its word is the word of those fields: no field is lost (R115). -/
theorem encode_of_decodeFields {op t w : Nat} {s : Bool} {i : Instr} (hw : w < 256) (h : decodeFields op s t w = .ok i) :
    i.wf = true ∧ encode i = wordOf op s t w := by
  match op with
  | 0 | _ + 7 => cases h
  | 1 =>
    obtain ⟨hzero, rfl⟩ := requireZero_eq_ok.1 h
    obtain ⟨rfl, rfl⟩ : t = 0 ∧ w = 0 := by simpa using hzero
    exact ⟨rfl, rfl⟩
  | 2 =>
    obtain ⟨hzero, rfl⟩ := requireZero_eq_ok.1 h
    obtain rfl : t = 0 := by simpa using hzero
    exact ⟨decide_eq_true hw, rfl⟩
  | 3 =>
    obtain ⟨rfl, ty, hty, rfl⟩ := decodeTyped_eq_ok.1 h
    exact ⟨wf_encOf s ty, encode_encOf s hty⟩
  | 4 =>
    obtain ⟨rfl, ty, hty, rfl⟩ := decodeTyped_eq_ok.1 h
    exact ⟨wf_decOf s ty, encode_decOf s hty⟩
  | 5 | 6 =>
    obtain ⟨hzero, rfl⟩ := requireZero_eq_ok.1 h
    obtain ⟨⟨rfl, rfl⟩, rfl⟩ : (s = false ∧ t = 0) ∧ w = 0 := by simpa using hzero
    exact ⟨rfl, rfl⟩

/-- The command of a word is well formed and encodes to the word. -/
theorem encode_of_decode {c : Word} {i : Instr} (h : decode c = .ok i) : i.wf = true ∧ encode i = c := by
  rw [decode] at h
  split at h
  case isTrue hreserved =>
    obtain ⟨hwf, hword⟩ := encode_of_decodeFields (Nat.mod_lt _ (by decide)) h
    exact ⟨hwf, hword.trans (wordOf_bitsAt hreserved)⟩
  case isFalse => cases h

/-- A word stands for a command exactly when it is the command's word. -/
theorem decode_eq_ok_iff {c : Word} {i : Instr} : decode c = .ok i ↔ i.wf = true ∧ c = encode i := by
  constructor
  · intro h
    obtain ⟨hwf, hword⟩ := encode_of_decode h
    exact ⟨hwf, hword.symm⟩
  · rintro ⟨hwf, rfl⟩
    exact decode_encode hwf

/-- Settles O1: the decoder reads back the fields the encoder puts in. -/
theorem decodeOfEncodeIsTheCommand : Obligations.DecodeOfEncodeIsTheCommand := fun _ h => decode_encode h

/-! ## The words as R117 spells them -/

/-- Bits from place 16 up and a number below it are joined as a sum. -/
theorem or_shiftLeft_eq_add {low : Word} {w : Nat} (hlow : low.toNat < 2 ^ 16) (hw : w < 256) :
    low ||| BitVec.ofNat 32 w <<< 16 = BitVec.ofNat 32 (low.toNat + w * 2 ^ 16) := by
  have hshift : w <<< 16 = w * 2 ^ 16 := Nat.shiftLeft_eq w 16
  apply BitVec.eq_of_toNat_eq
  rw [BitVec.toNat_or, BitVec.toNat_shiftLeft, BitVec.toNat_ofNat, BitVec.toNat_ofNat, Nat.mod_eq_of_lt (a := w) (by omega),
    Nat.mod_eq_of_lt (a := w <<< 16) (by omega), Nat.or_comm, ← Nat.shiftLeft_add_eq_or_of_lt hlow, hshift,
    Nat.mod_eq_of_lt (by omega), Nat.add_comm]

/-- The encoder's words are those the rule lists. -/
theorem encode_eq_specWord {i : Instr} (h : i.wf = true) : encode i = specWord i := by
  cases i with
  | bdec s w =>
    have hw : w < 256 := of_decide_eq_true h
    have hflags : (0x00000002#32 ||| flagAt 4 s).toNat = 2 + s.toNat * 2 ^ 4 := by cases s <;> decide
    have hs := s.toNat_lt
    rw [encode, specWord, or_shiftLeft_eq_add (by omega) hw, hflags, wordOf, Nat.zero_mul, Nat.add_zero]
  | benc s | encHs s | encVer s | encNum s | encChr s | encRs s | decHs s | decVer s | decNum s | decChr s | decRs s =>
    cases s <;> decide
  | chksum | clr => rfl

/-- Settles O2: a legal word is the encoder's, and the encoder's words are the listed ones. -/
theorem legalWordsAreTheListedOnes : Obligations.LegalWordsAreTheListedOnes := by
  intro c i
  rw [decode_eq_ok_iff]
  refine and_congr_right fun hwf => ?_
  rw [encode_eq_specWord hwf]

/-- Settles O4: each word is the encoder's for its command. -/
theorem exampleWordsDecode : Obligations.ExampleWordsDecode :=
  ⟨decode_encode (i := .encHs true) rfl, decode_encode (i := .bdec true 21) rfl, decode_encode (i := .decChr true) rfl,
    decode_encode (i := .chksum) rfl, decode_encode (i := .clr) rfl⟩

/-! ## The words without a command (R115, R116) -/

theorem toOption_requireZero_eq_none {allZero : Bool} {i : Instr} : (requireZero allZero i).toOption = none ↔ allZero = false := by
  cases allZero <;> simp [requireZero, Except.toOption]

theorem ofCode_eq_none {t : Nat} : ProtoType.ofCode t = none ↔ 5 ≤ t := by
  match t with
  | 0 | 1 | 2 | 3 | 4 => exact iff_of_false nofun (by decide)
  | _ + 5 => exact iff_of_true rfl (by omega)

theorem toOption_decodeTyped_eq_none {command : ProtoType → Instr} {t w : Nat} :
    (decodeTyped command t w).toOption = none ↔ 5 ≤ t ∨ w ≠ 0 := by
  rw [decodeTyped, ← ofCode_eq_none]
  cases ProtoType.ofCode t with
  | none => exact iff_of_true rfl (.inl rfl)
  | some ty => by_cases hw : w = 0 <;> simp [hw, Except.toOption]

/-- The fields that stand for no command: R116's list, but for the reserved bits. -/
theorem toOption_decodeFields_eq_none {op t w : Nat} {s : Bool} :
    (decodeFields op s t w).toOption = none ↔
      (op = 0 ∨ 7 ≤ op) ∨ ((op = 3 ∨ op = 4) ∧ 5 ≤ t) ∨
      ((op = 1 ∧ (t ≠ 0 ∨ w ≠ 0)) ∨ (op = 2 ∧ t ≠ 0) ∨ ((op = 3 ∨ op = 4) ∧ w ≠ 0) ∨
        ((op = 5 ∨ op = 6) ∧ (s = true ∨ t ≠ 0 ∨ w ≠ 0))) := by
  match op with
  | 0 | _ + 7 => exact iff_of_true rfl (.inl (by omega))
  | 1 | 2 => simp [decodeFields, toOption_requireZero_eq_none, imp_iff_not_or]
  | 3 | 4 => simp [decodeFields, toOption_decodeTyped_eq_none]
  | 5 | 6 => simp [decodeFields, toOption_requireZero_eq_none, imp_iff_not_or, or_assoc]

/-- A field as the decoder reads it. -/
theorem toNat_extractLsb'_eq_bitsAt (c : Word) (lo len : Nat) : (c.extractLsb' lo len).toNat = bitsAt c lo len := by
  rw [BitVec.extractLsb'_toNat, Nat.shiftRight_eq_div_pow, bitsAt]

/-- The words that stand for no command are those of R116's list. -/
theorem toOption_decode_eq_none_iff (c : Word) : (decode c).toOption = none ↔ IllegalFields c := by
  have hflag : (bitsAt c 4 1 == 1) = true ↔ bitsAt c 4 1 ≠ 0 := by
    rcases bitsAt_one_eq c 4 with hb | hb <;> simp [hb]
  simp only [IllegalFields, ← BitVec.toNat_inj, ne_eq, toNat_extractLsb'_eq_bitsAt, BitVec.ofNat_eq_ofNat, BitVec.toNat_ofNat,
    Nat.reducePow, Nat.reduceMod, Nat.zero_mod]
  rw [decode]
  split
  case isTrue hreserved =>
    rw [toOption_decodeFields_eq_none, hflag]
    simp [hreserved]
  case isFalse hreserved =>
    refine iff_of_true rfl (.inr (.inl ?_))
    omega

/-- Settles O3: a word without a command is `E_CMD`, and BDEC checks its width before anything else. -/
theorem illegalWordsAreTheListedOnes : Obligations.IllegalWordsAreTheListedOnes := by
  refine ⟨toOption_decode_eq_none_iff, fun c s hc => ?_, fun sb w s hlt hw => ?_⟩
  · exact (runWord_of_illegal s ((toOption_decode_eq_none_iff c).2 hc)).trans (by rw [raise_errorAt]; rfl)
  · have hdec : decode (specWord (.bdec sb w)) = .ok (.bdec sb w) :=
      (legalWordsAreTheListedOnes _ _).2 ⟨decide_eq_true hlt, rfl⟩
    have herr : execError (.bdec sb w) s = some (errorAt .width 0 (BitVec.ofNat 64 w)) := by
      rw [execError, checkWidth, if_pos hw, Option.some_or]
    rw [runWord, hdec]
    exact (exec_of_error herr).trans (by rw [raise_errorAt]; rfl)

end Sys2Proof.Machine
end

section
/-! PROOFS. The padding of a chunk, and what a decode does not read of it (40_bitcodec.md R151, R154, R159, R160). -/

namespace Sys2Proof.Machine

/-! ## Padding by length -/

/-- The padding depends on the length modulo 8. -/
theorem padBits_mod (T : Nat) : padBits (T % 8) = padBits T := by rw [padBits, padBits, Nat.mod_mod]

/-- The odd bit of the padding stands at the back (R151). -/
theorem frontBits_le_backBits (T : Nat) : frontBits T ≤ backBits T ∧ backBits T ≤ frontBits T + 1 := by
  unfold backBits frontBits; omega

theorem backBits_le (T : Nat) : backBits T ≤ 4 := by unfold backBits frontBits padBits; omega

/-- Only a whole number of bytes has no padding. -/
theorem no_padding_iff (T : Nat) : frontBits T = 0 ∧ backBits T = 0 ↔ T % 8 = 0 := by
  unfold backBits frontBits padBits; omega

/-- Settles O48: `frontBits` and `backBits` are the two lengths. -/
theorem paddingIsSymmetric : Obligations.PaddingIsSymmetric := by
  intro seq
  obtain ⟨hle, hodd⟩ := frontBits_le_backBits seq.length
  have htotal : frontBits seq.length + seq.length + backBits seq.length = 8 * (frame seq).length := by
    rw [length_frame]; exact frontBits_add_backBits _
  exact ⟨length_frame seq, frontBits seq.length, backBits seq.length, hle, hodd, htotal, backBits_le _,
    no_padding_iff _, fun p _ => bitAt_frame seq p⟩

/-- The chunk of a whole number of bytes is those bytes. -/
theorem frame_of_aligned {seq : List Bool} (h : seq.length % 8 = 0) : frame seq = bitsToBytes seq := by
  obtain ⟨hfront, hback⟩ := (no_padding_iff _).2 h
  rw [frame, hfront, hback, List.replicate_zero, List.nil_append, List.append_nil]

/-- The chunk of a sequence with at most one padding bit has none in front. -/
theorem frame_of_front_zero {seq : List Bool} (h : frontBits seq.length = 0) :
    frame seq = bitsToBytes (seq ++ List.replicate (backBits seq.length) false) := by
  rw [frame, h, List.replicate_zero, List.nil_append]

/-- Settles O49: neither chunk has padding in front, and the first has none at the back. -/
theorem alignedChunksCompose : Obligations.AlignedChunksCompose := by
  intro a b ha hb
  have hpad : padBits (a ++ b).length = padBits b.length := by
    rw [← padBits_mod, List.length_append, Nat.add_mod, ha, Nat.zero_add, Nat.mod_mod, padBits_mod]
  have hfront : frontBits b.length = 0 := by unfold frontBits padBits; omega
  have hfront' : frontBits (a ++ b).length = 0 := by rw [frontBits, hpad]; exact hfront
  have hback : backBits (a ++ b).length = backBits b.length := by rw [backBits, backBits, hpad, hfront, hfront']
  have hbytes : a.length = 8 * (a.length / 8) := by omega
  calc frame (a ++ b)
      = bitsToBytes (a ++ (b ++ List.replicate (backBits b.length) false)) := by
        rw [frame_of_front_zero hfront', hback, List.append_assoc]
    _ = bitsToBytes a ++ bitsToBytes (b ++ List.replicate (backBits b.length) false) := bitsToBytes_append hbytes
    _ = frame a ++ frame b := by rw [frame_of_aligned ha, frame_of_front_zero hfront]

/-! ## A decode reads the bits of its fields alone -/

section
variable {s : State} {m : Memory} {w : Nat} {sb : Bool}

/-- The fields of two inputs of one length are the same when every bit of them is. -/
theorem inputFields_congr
    (h : ∀ p, fieldStart s w sb 0 ≤ p → p < fieldStart s w sb (decodeCount s.inLen.toNat w sb) →
      bitAt { s with ibuf := m }.ibufAt p = bitAt s.ibufAt p) :
    inputFields w sb { s with ibuf := m } = inputFields w sb s := by
  refine List.ext_getElem (by simp) fun k hk hk' => ?_
  have hcount : k < decodeCount s.inLen.toNat w sb := by simpa using hk'
  have hnext : (k + 1) * (w + sb.toNat) ≤ decodeCount s.inLen.toNat w sb * (w + sb.toNat) :=
    Nat.mul_le_mul_right _ hcount
  rw [← List.getD_eq_getElem _ 0, ← List.getD_eq_getElem _ 0, getD_inputFields_bits (s := { s with ibuf := m }) hcount,
    getD_inputFields_bits hcount]
  refine foldl_bits_congr fun j hj => h _ ?_ ?_
  · simp only [fieldStart]; omega
  · simp only [fieldStart] at hnext ⊢
    rw [Nat.succ_mul] at hnext
    omega

variable (h : inputFields w sb { s with ibuf := m } = inputFields w sb s)
include h

theorem inputValues_of_inputFields : inputValues w sb { s with ibuf := m } = inputValues w sb s := by
  rw [inputValues, h]; rfl

theorem decodeError_of_inputFields (accept : Nat → Nat → Option CmdError) :
    decodeError w sb accept { s with ibuf := m } = decodeError w sb accept s := by
  rw [decodeError, inputValues_of_inputFields h, h]; rfl

theorem decodeValues_of_inputFields :
    decodeValues w sb { s with ibuf := m } = { decodeValues w sb s with ibuf := m } := by
  rw [decodeValues, inputValues_of_inputFields h]; rfl

end

/-- A decode of the same fields fails alike, and its effect differs in IBUF alone. -/
theorem execDecode_of_inputFields {i : Instr} {sb : Bool} {w : Nat} {s : State} {m : Memory}
    (hi : decodeShape i = some (sb, w)) (h : inputFields w sb { s with ibuf := m } = inputFields w sb s) :
    execError i { s with ibuf := m } = execError i s ∧
    execEffect i { s with ibuf := m } = { execEffect i s with ibuf := m } := by
  cases i with
  | benc _ | encHs _ | encVer _ | encNum _ | encChr _ | encRs _ | chksum | clr => cases hi
  | bdec sb w =>
    cases hi
    exact ⟨congrArg (checkWidth w).or (decodeError_of_inputFields h _), decodeValues_of_inputFields h⟩
  | decHs sb | decVer sb | decNum sb | decRs sb =>
    cases hi
    exact ⟨decodeError_of_inputFields h _, decodeValues_of_inputFields h⟩
  | decChr sb =>
    cases hi
    refine ⟨decodeError_of_inputFields h _, ?_⟩
    rw [execEffect, wireWidth, inputValues_of_inputFields h]; rfl

/-- Settles O47: the fields of the two inputs are the same, and nothing else of IBUF is read. -/
theorem paddingBitsAreNotValidated : Obligations.PaddingBitsAreNotValidated := by
  intro i sb w s t m hi hbits hx
  obtain ⟨herr, heff⟩ := execDecode_of_inputFields hi (inputFields_congr hbits)
  rcases exec_cases hx with ⟨e, he, rfl⟩ | ⟨hok, rfl⟩
  · exact exec_of_error (herr.trans he)
  · rw [exec_of_ok (herr.trans hok), heff]; rfl

end Sys2Proof.Machine
end

section
/-! PROOFS. The rules of the encodes and decodes that keep their integers: BENC, BDEC and the protocol value commands
(40_bitcodec.md R155, R156; 41_protocol_values.md R193, R194). -/

namespace Sys2Proof.Machine

/-! ## Encodes -/

/-- The code and ERRVAL of an error, as `EncodeRule` says which entries are refused. -/
def reported (error : Option CmdError) : Option (Nat × BitVec 64) := error.map fun e => (e.code.code.toNat, e.val)

@[simp] theorem reported_eq_none {error : Option CmdError} : reported error = none ↔ error = none := Option.map_eq_none_iff

/-- An encode whose fields are `(w k, r k)` and that leaves the value buffer follows `EncodeRule`, if each error it finds in an
entry is about that entry. -/
theorem encodeRule_of_encodeFields {i : Instr} {sb : Bool} {s : State} {check : Nat → Option CmdError} {L : Nat}
    {fields : State → List (Nat × Nat)} {w r : Nat → Nat}
    (hx : exec i s = command (encodeError check L s) (fun s => encodeFields (fields s) sb s) s)
    (hfields : fields s = (List.range s.count.toNat).map fun k => (w k, r k))
    (hL : L = ceilDiv (totalBits ((fields s).map (·.1)) sb) 8)
    (habout : ∀ k e, check k = some e → e.idx = BitVec.ofNat 32 k) :
    EncodeRule i sb s w r (fun k => reported (check k)) (fun t => t.x = s.x) := by
  refine encodeRule_of hx ?_ (fun k c v hbad => ?_) (fun k => reported_eq_none.1) fun _ _ => ⟨s.x, ?_, rfl⟩
  · rw [hL, hfields, range_map_fst, totalBits_range]
  · obtain ⟨⟨code, idx, val⟩, he, hcv⟩ := Option.map_eq_some_iff.1 hbad
    cases hcv
    obtain rfl : idx = BitVec.ofNat 32 k := habout k _ he
    exact ⟨code, rfl, he⟩
  · rw [encodeFields, ← hL, hfields]; rfl

theorem checkEntry_idx {s : State} {k : Nat} {e : CmdError} (h : checkEntry s k = some e) : e.idx = BitVec.ofNat 32 k := by
  unfold checkEntry at h
  split_ifs at h <;> cases h <;> rfl

theorem checkEntry_eq_none {s : State} {k : Nat} :
    checkEntry s k = none ↔
      (1 ≤ (s.widthAt k).toNat ∧ (s.widthAt k).toNat ≤ 64) ∧ (s.rawAt k).toNat < 2 ^ (s.widthAt k).toNat := by
  unfold checkEntry
  split_ifs <;> simp <;> omega

/-- What BENC reports of an entry, as R155 says it. -/
theorem reported_checkEntry (s : State) (k : Nat) :
    reported (checkEntry s k) =
      if (s.widthAt k).toNat = 0 ∨ 64 < (s.widthAt k).toNat then some (2, (s.widthAt k).setWidth 64)
      else if 2 ^ (s.widthAt k).toNat ≤ (s.rawAt k).toNat then some (3, s.rawAt k)
      else none := by
  unfold checkEntry
  split_ifs <;> rfl

theorem encodeRule_benc (sb : Bool) (s : State) :
    EncodeRule (.benc sb) sb s (fun k => (s.widthAt k).toNat) (fun k => (s.rawAt k).toNat)
      (fun k => reported (checkEntry s k)) (fun t => t.x = s.x) :=
  encodeRule_of_encodeFields rfl rfl (entryBytes_eq sb s) fun _ _ => checkEntry_idx

/-- Settles O30: BENC encodes the fields of the entries, and reports of each what its check finds. -/
theorem bencSerializesTheEntries : Obligations.BencSerializesTheEntries := by
  refine ⟨fun sb => (legalWordsAreTheListedOnes _ _).2 ⟨rfl, rfl⟩, fun sb s => ?_⟩
  simpa only [reported_checkEntry] using encodeRule_benc sb s

theorem exec_encOf {ty : ProtoType} (hty : ty ≠ .character) (sb : Bool) (s : State) :
    exec (encOf sb ty) s = typedEncode ty sb s := by
  cases ty with
  | character => exact absurd rfl hty
  | _ => rfl

theorem checkOperand_idx {ty : ProtoType} {k : Nat} {v : BitVec 64} {e : CmdError} (h : checkOperand ty k v = some e) :
    e.idx = BitVec.ofNat 32 k := by
  cases ty with
  | twelveBitNumber => cases h
  | handshake | version | character | receiveStatus =>
    simp only [checkOperand] at h
    split_ifs at h
    cases h
    rfl

/-- R193: the whole rule of a typed encode, for every type but Character. -/
theorem encodeRule_typed {ty : ProtoType} (hty : ty ≠ .character) (sb : Bool) (s : State) :
    EncodeRule (encOf sb ty) sb s (fun _ => wireWidth ty) (fun k => wireValue ty (s.rawAt k))
      (fun k => reported (checkOperand ty k (s.rawAt k))) (fun t => t.x = s.x) :=
  encodeRule_of_encodeFields (exec_encOf hty sb s) (List.map_map ..) (typedBytes_eq ty sb s) fun _ _ => checkOperand_idx

/-! ## Decodes -/

theorem checkWidth_eq_none {w : Nat} : checkWidth w = none ↔ 1 ≤ w ∧ w ≤ 64 := by
  unfold checkWidth
  split_ifs <;> simp <;> omega

/-- BDEC of a legal width accepts every integer. -/
theorem decodeRule_bdec (sb : Bool) {w : Nat} (hw : 1 ≤ w ∧ w ≤ 64) (s : State) :
    DecodeRule (.bdec sb w) sb s w (fun _ => True) (DecodedEntries sb s w) := by
  have hx : exec (.bdec sb w) s = command (decodeError w sb (fun _ _ => none) s) (decodeValues w sb) s := by
    rw [exec, execBdec, checkWidth_eq_none.2 hw, Option.none_or]
  exact decodeRule_of hx (fun _ _ hno => absurd trivial hno) (fun _ _ _ => rfl) fun _ _ => decodeValues_entries sb s w

/-- Settles O31: a width that is not legal is BDEC's first error, and any other width leaves the checks of every decode. -/
theorem bdecExtractsTheFields : Obligations.BdecExtractsTheFields := by
  intro sb w s
  refine ⟨fun hlt => (legalWordsAreTheListedOnes _ _).2 ⟨decide_eq_true hlt, rfl⟩, fun hw => ?_,
    fun hw => decodeRule_bdec sb hw s⟩
  have herr : execError (.bdec sb w) s = some (errorAt .width 0 (BitVec.ofNat 64 w)) := by
    rw [execError, checkWidth, if_pos hw, Option.some_or]
  rw [exec_of_error herr, raise_errorAt]; rfl

/-- The integers that are codes of a type (R191, R192); of the other types every integer is. -/
def IsCodeOf : ProtoType → Nat → Prop
  | .handshake => IsHandshake
  | .receiveStatus => IsReceiveStatus
  | _ => fun _ => True

/-! A decoder accepts exactly the codes of its type (R194). -/

theorem checkDecoded_of_isCodeOf {ty : ProtoType} {u : Nat} (k : Nat) (h : IsCodeOf ty u) : checkDecoded ty k u = none := by
  cases ty with
  | handshake => exact if_pos ((mem_handshakeCodes u).2 h)
  | receiveStatus => exact if_pos ((mem_statusCodes u).2 h)
  | _ => rfl

theorem checkDecoded_of_not_isCodeOf {ty : ProtoType} {u : Nat} (k : Nat) (h : ¬ IsCodeOf ty u) :
    checkDecoded ty k u = some (errorAt .enum k (BitVec.ofNat 64 u)) := by
  cases ty with
  | handshake => exact if_neg (mt (mem_handshakeCodes u).1 h)
  | receiveStatus => exact if_neg (mt (mem_statusCodes u).1 h)
  | _ => exact absurd trivial h

theorem exec_decOf {ty : ProtoType} (hty : ty ≠ .character) (sb : Bool) (s : State) :
    exec (decOf sb ty) s = typedDecode ty sb s := by
  cases ty with
  | character => exact absurd rfl hty
  | _ => rfl

/-- R194: the whole rule of a typed decode, for every type but Character. -/
theorem decodeRule_typed {ty : ProtoType} (hty : ty ≠ .character) (sb : Bool) (s : State) :
    DecodeRule (decOf sb ty) sb s (wireWidth ty) (IsCodeOf ty) (DecodedEntries sb s (wireWidth ty)) :=
  decodeRule_of (exec_decOf hty sb s) (fun k _ => checkDecoded_of_not_isCodeOf k) (fun k _ => checkDecoded_of_isCodeOf k)
    fun _ _ => decodeValues_entries sb s (wireWidth ty)

end Sys2Proof.Machine
end

section
/-! PROOFS. A decode of an encode's chunk (40_bitcodec.md R158). -/

namespace Sys2Proof.Machine

/-- The chunk of some fields depends on their widths and on the bits of its own bytes alone. -/
theorem ChunkBits.congr {n : Nat} {w w' r : Nat → Nat} {sb : Bool} {bit bit' : Nat → Bool} (hw : ∀ k < n, w k = w' k)
    (hbit : ∀ p < 8 * ((bitOffset w' sb n + 7) / 8), bit' p = bit p) (h : ChunkBits n w r sb bit) :
    ChunkBits n w' r sb bit' := by
  have hT : bitOffset w sb n = bitOffset w' sb n := bitOffset_congr hw
  have hoff : ∀ k < n, bitOffset w sb k = bitOffset w' sb k := fun k hk => bitOffset_congr fun j hj => hw j (hj.trans hk)
  obtain ⟨hfront, hvalue, hstop, hback⟩ := h
  rw [hT] at hfront hvalue hstop hback
  refine ⟨fun p hp => ?_, fun k hk b hb => ?_, fun hsb k hk => ?_, fun p hp hlt => ?_⟩
  · rw [hbit p (by omega)]; exact hfront p hp
  · have := bitOffset_mono (w := w') (sb := sb) hk
    rw [hbit _ (by omega), ← hoff k hk, ← hw k hk]
    exact hvalue k hk b (by rw [hw k hk]; exact hb)
  · have := bitOffset_mono (w := w') (sb := sb) hk
    have hone : sb.toNat = 1 := by rw [hsb]; rfl
    rw [hbit _ (by omega), ← hoff k hk, ← hw k hk]
    exact hstop hsb k hk
  · rw [hbit p hlt]; exact hback p hp hlt

/-- The input of a block is the chunk of `n` fields of width `w` and values `r k`, and the block has room for it. -/
structure State.HoldsChunk (u : State) (n w : Nat) (r : Nat → Nat) (sb : Bool) : Prop where
  params : u.params.wf
  count : n ≤ u.params.nv
  bytes : u.inLen.toNat ≤ u.params.nb
  inLen : u.inLen.toNat = (n * (w + sb.toNat) + 7) / 8
  chunk : ChunkBits n (fun _ => w) r sb (bitAt u.ibufAt)

/-- A block holds the chunk that was copied into it. -/
theorem State.holdsChunk_of_encode {i : Instr} {sb : Bool} {s t u : State} {w : Nat} {wAt r : Nat → Nat}
    {bad : Nat → Option (Nat × BitVec 64)} {entries : State → Prop} (h : EncodeRule i sb s wAt r bad entries)
    (hp : s.params.wf) (hw : ∀ k < s.count.toNat, wAt k = w) (hx : exec i s = .next t)
    (hok : statusErr t.status = false) (hcopy : ChunkCopied t u) : u.HoldsChunk s.count.toNat w r sb := by
  obtain ⟨hcount, -, hbytes, hout, hchunk, -, hparams, -⟩ := encode_success h hx hok
  obtain ⟨hcopied, hinLen, hibuf⟩ := hcopy
  have hsame : u.params = s.params := hcopied.trans hparams
  have hT : bitOffset wAt sb s.count.toNat = s.count.toNat * (w + sb.toNat) :=
    (bitOffset_congr hw).trans (bitOffset_const w sb _)
  rw [hT] at hbytes hout
  obtain ⟨-, -, -, hnb⟩ := id hp
  have hlen : u.inLen.toNat = (s.count.toNat * (w + sb.toNat) + 7) / 8 := by
    rw [hinLen, hout, BitVec.toNat_ofNat, Nat.mod_eq_of_lt (by omega)]
  refine ⟨by rwa [hsame], by rwa [hsame], by rwa [hsame, hlen], hlen, hchunk.congr hw fun p hlt => ?_⟩
  rw [bitOffset_const, ← hlen, hinLen] at hlt
  rw [bitAt, bitAt, hibuf (p / 8) (by omega)]

section
variable {u : State} {n w : Nat} {r : Nat → Nat} {sb : Bool} (h : u.HoldsChunk n w r sb)
include h

/-- A chunk holds a further field for each field's width of padding (R158, R161). -/
theorem State.HoldsChunk.decodeCount_eq (he : 0 < w + sb.toNat) :
    decodeCount u.inLen.toNat w sb =
      n + (8 * ((n * (w + sb.toNat) + 7) / 8) - n * (w + sb.toNat)) / (w + sb.toNat) := by
  have hbits : 8 * u.inLen.toNat =
      8 * ((n * (w + sb.toNat) + 7) / 8) - n * (w + sb.toNat) + (w + sb.toNat) * n := by
    rw [h.inLen, Nat.mul_comm (w + sb.toNat) n]; omega
  rw [decodeCount, hbits, Nat.add_mul_div_left _ _ he, Nat.add_comm]

/-- A decode of a chunk whose padding is shorter than a field returns its values. -/
theorem State.HoldsChunk.decode {i : Instr} {accept : Nat → Prop}
    (hpad : 8 * ((n * (w + sb.toNat) + 7) / 8) - n * (w + sb.toNat) < w + sb.toNat)
    (hrule : DecodeRule i sb u w accept (DecodedEntries sb u w)) (hr : ∀ k < n, r k < 2 ^ w)
    (haccept : ∀ k < n, accept (r k)) :
    ∃ v, exec i u = .next v ∧ statusErr v.status = false ∧ v.count = BitVec.ofNat 32 n ∧
      ∀ k < n, v.rawAt k = BitVec.ofNat 64 (r k) := by
  obtain ⟨hcount, hfields⟩ := payload_of_chunk h.chunk h.inLen (fun _ _ => rfl) (by rw [h.inLen]; exact hpad)
  have hpayload : ∀ k < n, payload u w sb k = r k := fun k hk => by
    rw [(hfields k hk).1, Nat.mod_eq_of_lt (hr k hk)]
  obtain ⟨-, -, -, -, hsuccess⟩ := hrule
  simp only [DecodedEntries, hcount] at hsuccess
  obtain ⟨v, hx, hvcount, ⟨hentries, -⟩, -, -, hdone, -⟩ := hsuccess h.bytes h.count
    (fun hsb k hk => (hfields k hk).2 hsb) (fun k hk => by rw [hpayload k hk]; exact haccept k hk)
  exact ⟨v, hx, statusErr_of_completed hdone, hvcount, fun k hk => by rw [(hentries k hk).1, hpayload k hk]⟩

/-- COUNT holds the number of fields found in a chunk. -/
theorem State.HoldsChunk.toNat_decodeCount :
    (BitVec.ofNat 32 (decodeCount u.inLen.toNat w sb)).toNat = decodeCount u.inLen.toNat w sb := by
  have hle : decodeCount u.inLen.toNat w sb ≤ 8 * u.inLen.toNat := Nat.div_le_self _ _
  obtain ⟨-, -, -, hnb⟩ := h.params
  have hbytes := h.bytes
  rw [BitVec.toNat_ofNat, Nat.mod_eq_of_lt (by omega)]

end

/-- COUNT after a BDEC without an error: the number of fields (R156). -/
theorem count_of_bdec {sb : Bool} {w : Nat} {s t : State} (hx : exec (.bdec sb w) s = .next t)
    (hok : statusErr t.status = false) : t.count = BitVec.ofNat 32 (decodeCount s.inLen.toNat w sb) := by
  rcases exec_cases hx with ⟨e, -, rfl⟩ | ⟨-, rfl⟩
  · simp at hok
  · simp [execEffect, decodeValues]

/-- Settles O44: the decoder finds a field too many exactly when the padding holds one. -/
theorem roundTripExactlyWhenPaddingIsShort : Obligations.RoundTripExactlyWhenPaddingIsShort := by
  intro sb w s t u hp hw1 hw64 hwidth hx hok hcopy T pad
  have hrule := encodeRule_benc sb s
  have hholds := State.holdsChunk_of_encode hrule hp hwidth hx hok hcopy
  obtain ⟨-, hnone, -⟩ := encode_success hrule hx hok
  have hraw : ∀ k < s.count.toNat, (s.rawAt k).toNat < 2 ^ w := fun k hk => by
    obtain ⟨-, hlt⟩ := checkEntry_eq_none.1 (reported_eq_none.1 (hnone k hk))
    rwa [hwidth k hk] at hlt
  have hcount : decodeCount u.inLen.toNat w sb = s.count.toNat + pad / (w + sb.toNat) := hholds.decodeCount_eq (by omega)
  refine ⟨hcount, fun he => by omega, ?_, fun hpad => ?_⟩
  · rintro ⟨v, hv, hvok, hvcount, -⟩
    have hsame : decodeCount u.inLen.toNat w sb = s.count.toNat := by
      rw [← hvcount, count_of_bdec hv hvok, hholds.toNat_decodeCount]
    exact (Nat.div_eq_zero_iff_lt (by omega)).1 (by omega)
  · obtain ⟨v, hv, hvok, hvcount, hvraw⟩ := hholds.decode hpad (decodeRule_bdec sb ⟨hw1, hw64⟩ u) hraw fun _ _ => trivial
    exact ⟨v, hv, hvok, by simp [hvcount],
      fun k hk => by simp [hvraw k hk]⟩

/-! ## The protocol value types -/

/-- The wire integer of an operand in a type's domain has the type's width and is a code of the type (R190). -/
theorem wireValue_of_checkOperand {ty : ProtoType} {k : Nat} {v : BitVec 64} (hty : ty ≠ .character)
    (h : checkOperand ty k v = none) : wireValue ty v < 2 ^ wireWidth ty ∧ IsCodeOf ty (wireValue ty v) := by
  cases ty with
  | character => exact absurd rfl hty
  | twelveBitNumber => exact ⟨Nat.mod_lt _ (by decide), trivial⟩
  | version => exact ⟨by simpa [checkOperand, wireValue, wireWidth] using h, trivial⟩
  | handshake =>
    have hcode : IsHandshake v.toNat := (mem_handshakeCodes _).1 (by simpa [checkOperand] using h)
    exact ⟨by simp only [wireValue, wireWidth]; omega, hcode⟩
  | receiveStatus =>
    have hcode : IsReceiveStatus v.toNat := (mem_statusCodes _).1 (by simpa [checkOperand] using h)
    exact ⟨by simp only [wireValue, wireWidth]; omega, hcode⟩

/-- A type's decode of its encode's chunk returns the wire integers: no type is as narrow as a byte. -/
theorem typed_roundTrip {ty : ProtoType} (hty : ty ≠ .character) {sb : Bool} {s t u : State} (hp : s.params.wf)
    (hx : exec (encOf sb ty) s = .next t) (hok : statusErr t.status = false) (hcopy : ChunkCopied t u) :
    ∃ v, exec (decOf sb ty) u = .next v ∧ statusErr v.status = false ∧ v.count = s.count ∧
      ∀ k < s.count.toNat, v.rawAt k = BitVec.ofNat 64 (wireValue ty (s.rawAt k)) := by
  have hrule := encodeRule_typed hty sb s
  have hholds := State.holdsChunk_of_encode hrule hp (fun _ _ => rfl) hx hok hcopy
  obtain ⟨-, hnone, -⟩ := encode_success hrule hx hok
  have hvalue := fun k hk => wireValue_of_checkOperand hty (reported_eq_none.1 (hnone k hk))
  have hwide : 8 < wireWidth ty := by cases ty <;> decide
  obtain ⟨v, hv, hvok, hvcount, hvraw⟩ := hholds.decode (by omega) (decodeRule_typed hty sb u)
    (fun k hk => (hvalue k hk).1) (fun k hk => (hvalue k hk).2)
  exact ⟨v, hv, hvok, by simp [hvcount], hvraw⟩

/-- Settles O45: the wire integer is the value itself, but for TwelveBitNumber its residue. -/
theorem typedValuesRoundTrip : Obligations.TypedValuesRoundTrip := by
  intro enc dec sb s t u hp hpair hx hok hcopy
  simp only [List.mem_cons, Prod.mk.injEq, List.not_mem_nil, or_false] at hpair
  rcases hpair with ⟨rfl, rfl⟩ | ⟨rfl, rfl⟩ | ⟨rfl, rfl⟩ | ⟨rfl, rfl⟩
  · simpa [wireValue, decOf] using typed_roundTrip (ty := .handshake) nofun hp hx hok hcopy
  · simpa [wireValue, decOf] using typed_roundTrip (ty := .version) nofun hp hx hok hcopy
  · simpa [wireValue, decOf] using typed_roundTrip (ty := .twelveBitNumber) nofun hp hx hok hcopy
  · simpa [wireValue, decOf] using typed_roundTrip (ty := .receiveStatus) nofun hp hx hok hcopy

end Sys2Proof.Machine
end

section
/-! PROOFS. The protocol value commands, each by its operands and codes, and the sentinels None and Ignore
(41_protocol_values.md R195 to R203). -/

namespace Sys2Proof.Machine

/-- The word R117 lists for a command decodes to it. -/
theorem decode_specWord {i : Instr} (h : i.wf = true) : decode (specWord i) = .ok i :=
  (legalWordsAreTheListedOnes _ _).2 ⟨h, rfl⟩

/-! ## Encodes -/

/-- A check with one condition reports its code and the operand, if the operand does not meet it. -/
theorem reported_ite {p q : Prop} [Decidable p] [Decidable q] (hpq : p ↔ q) (c : ErrCode) (k : Nat) (v : BitVec 64) :
    reported (if p then none else some (errorAt c k v)) = if q then none else some (c.code.toNat, v) := by
  by_cases hq : q
  · rw [if_pos (hpq.2 hq), if_pos hq]; rfl
  · rw [if_neg (mt hpq.1 hq), if_neg hq]; rfl

/-! What each encoder reports of an operand (R195, R197, R199, R201). -/

theorem reported_checkOperand_handshake (k : Nat) (v : BitVec 64) :
    reported (checkOperand .handshake k v) = if IsHandshake v.toNat then none else some (4, v) :=
  reported_ite (mem_handshakeCodes _) .enum k v

theorem reported_checkOperand_version (k : Nat) (v : BitVec 64) :
    reported (checkOperand .version k v) = if v.toNat < 1024 then none else some (3, v) :=
  reported_ite Iff.rfl .value k v

theorem reported_checkOperand_twelveBitNumber (k : Nat) (v : BitVec 64) :
    reported (checkOperand .twelveBitNumber k v) = none := rfl

theorem reported_checkOperand_receiveStatus (k : Nat) (v : BitVec 64) :
    reported (checkOperand .receiveStatus k v) = if IsReceiveStatus v.toNat then none else some (4, v) :=
  reported_ite (mem_statusCodes _) .enum k v

/-- Settles O32: the rule of the typed encodes at Handshake. -/
theorem encHsEncodesHandshakeCodes : Obligations.EncHsEncodesHandshakeCodes := by
  refine ⟨fun sb => decode_specWord (i := .encHs sb) rfl, fun sb s => ?_⟩
  simpa only [encOf, wireWidth, wireValue, reported_checkOperand_handshake] using
    encodeRule_typed (ty := .handshake) nofun sb s

/-- Settles O34: the rule of the typed encodes at Version. -/
theorem encVerEncodesVersions : Obligations.EncVerEncodesVersions := by
  refine ⟨fun sb => decode_specWord (i := .encVer sb) rfl, fun sb s => ?_⟩
  simpa only [encOf, wireWidth, wireValue, reported_checkOperand_version] using
    encodeRule_typed (ty := .version) nofun sb s

/-- Settles O36: the rule of the typed encodes at TwelveBitNumber, which refuses no operand. -/
theorem encNumReducesModulo4096 : Obligations.EncNumReducesModulo4096 := by
  refine ⟨fun sb => decode_specWord (i := .encNum sb) rfl, fun sb s => ?_⟩
  simpa only [encOf, wireWidth, wireValue, reported_checkOperand_twelveBitNumber] using
    encodeRule_typed (ty := .twelveBitNumber) nofun sb s

/-- Settles O38: the rule of the typed encodes at ReceiveStatus. -/
theorem encRsEncodesStatusCodes : Obligations.EncRsEncodesStatusCodes := by
  refine ⟨fun sb => decode_specWord (i := .encRs sb) rfl, fun sb s => ?_⟩
  simpa only [encOf, wireWidth, wireValue, reported_checkOperand_receiveStatus] using
    encodeRule_typed (ty := .receiveStatus) nofun sb s

/-! ## Decodes -/

/-- Settles O33: the rule of the typed decodes at Handshake. -/
theorem decHsDecodesHandshakeCodes : Obligations.DecHsDecodesHandshakeCodes :=
  ⟨fun sb => decode_specWord (i := .decHs sb) rfl, decodeRule_typed (ty := .handshake) nofun⟩

/-- Settles O35: the rule of the typed decodes at Version, of which every integer is a code. -/
theorem decVerDecodesVersions : Obligations.DecVerDecodesVersions :=
  ⟨fun sb => decode_specWord (i := .decVer sb) rfl, decodeRule_typed (ty := .version) nofun⟩

/-- Settles O37: the rule of the typed decodes at TwelveBitNumber, of which every integer is a code. -/
theorem decNumDecodesNumbers : Obligations.DecNumDecodesNumbers :=
  ⟨fun sb => decode_specWord (i := .decNum sb) rfl, decodeRule_typed (ty := .twelveBitNumber) nofun⟩

/-- Settles O39: the rule of the typed decodes at ReceiveStatus. -/
theorem decRsDecodesStatusCodes : Obligations.DecRsDecodesStatusCodes :=
  ⟨fun sb => decode_specWord (i := .decRs sb) rfl, decodeRule_typed (ty := .receiveStatus) nofun⟩

/-! ## The sentinels (R203) -/

/-- An encode that refuses the entry `k` with the code `c` fails with `c` about the first entry it refuses. -/
theorem EncodeRule.exec_of_refused {i : Instr} {sb : Bool} {s : State} {w r : Nat → Nat} {entries : State → Prop}
    {ok : Nat → Prop} [DecidablePred ok] {c k : Nat} {v : Nat → BitVec 64}
    (h : EncodeRule i sb s w r (fun k => if ok k then none else some (c, v k)) entries)
    (hcount : s.count.toNat ≤ s.params.nv) (hk : k < s.count.toNat) (hbad : ¬ ok k) :
    ∃ j ≤ k, exec i s = .next (s.failed c j (v j)) := by
  have hex : ∃ j, ¬ ok j := ⟨k, hbad⟩
  have hfirst : Nat.find hex ≤ k := Nat.find_min' hex hbad
  obtain ⟨-, hrefused, -⟩ := h
  exact ⟨Nat.find hex, hfirst, hrefused hcount _ (hfirst.trans_lt hk) _ _ (if_neg (Nat.find_spec hex))
    fun j hj => if_pos (not_not.1 (Nat.find_min hex hj))⟩

/-- A decode without an error has accepted every payload (R306). -/
theorem accepted_of_decodeError {w : Nat} {sb : Bool} {accept : Nat → Nat → Option CmdError} {s : State}
    (h : decodeError w sb accept s = none) :
    ∀ k < decodeCount s.inLen.toNat w sb, accept k (payload s w sb k) = none := by
  rw [decodeError_eq] at h
  simp only [Option.or_eq_none_iff] at h
  obtain ⟨-, -, -, haccepted⟩ := h
  exact firstError_eq_none.1 haccepted

/-- Every entry a successful typed decode delivers is a code of the type. -/
theorem isCodeOf_of_typedDecode {ty : ProtoType} (hty : ty ≠ .character) {sb : Bool} {s t : State} {k : Nat}
    (hx : exec (decOf sb ty) s = .next t) (hok : statusErr t.status = false) (hk : k < t.count.toNat) :
    IsCodeOf ty (t.rawAt k).toNat := by
  rw [exec_decOf hty] at hx
  rcases command_cases hx with ⟨e, -, rfl⟩ | ⟨hnone, rfl⟩
  · simp at hok
  · obtain ⟨x, m, heff, hentries, -⟩ := decodeValues_entries sb s (wireWidth ty)
    have hfield : k < decodeCount s.inLen.toNat (wireWidth ty) sb := by
      rw [heff] at hk
      exact hk.trans_le (toNat_ofNat_le (Nat.le_refl _))
    have hcode : IsCodeOf ty (payload s (wireWidth ty) sb k) := by
      by_contra hno
      have haccepted := accepted_of_decodeError hnone k hfield
      rw [checkDecoded_of_not_isCodeOf k hno] at haccepted
      cases haccepted
    have hlt : payload s (wireWidth ty) sb k < 2 ^ 64 :=
      (payload_lt s (wireWidth ty) sb k).trans_le (Nat.pow_le_pow_right (by decide) (by cases ty <;> decide))
    obtain ⟨hraw, -⟩ := hentries k hfield
    rwa [hraw, BitVec.toNat_ofNat, Nat.mod_eq_of_lt hlt]

/-- Settles O52: neither sentinel is a code, so the encoders refuse it and the decoders deliver none. -/
theorem sentinelsAreNotValues : Obligations.SentinelsAreNotValues := by
  obtain ⟨-, hencHs⟩ := encHsEncodesHandshakeCodes
  obtain ⟨-, hencRs⟩ := encRsEncodesStatusCodes
  refine ⟨fun sb s k hk hcount hsentinel => ?_, fun sb s t _ hok k hk => ⟨fun hx => ?_, fun hx => ?_⟩⟩
  · exact ⟨(hencHs sb s).exec_of_refused hcount hk (by omega), (hencRs sb s).exec_of_refused hcount hk (by omega)⟩
  · have hcode : IsHandshake (t.rawAt k).toNat := isCodeOf_of_typedDecode (ty := .handshake) nofun hx hok hk
    exact ⟨hcode, by omega, by omega⟩
  · have hcode : IsReceiveStatus (t.rawAt k).toNat := isCodeOf_of_typedDecode (ty := .receiveStatus) nofun hx hok hk
    exact ⟨hcode, by omega, by omega⟩

end Sys2Proof.Machine
end

section
/-! PROOFS. The stream checksum and the Character embedding as numbers (42_character.md R230 to R233). -/

namespace Sys2Proof.Machine

/-! ## The checksum of a string (R230, R231) -/

/-- Each nibble is that of its own character, under the magic of the whole string. -/
theorem getD_streamChecksum {text : List Byte} {k : Nat} (hk : k < text.length) :
    (streamChecksum text).getD k 0 = nibbleOf (magicOf text) (text.getD k 0) := by
  rw [List.getD_eq_getElem _ _ (by rwa [length_streamChecksum]), List.getD_eq_getElem _ _ hk]
  simp [streamChecksum]

/-- Each nibble, as a number. -/
theorem toNat_getD_streamChecksum {text : List Byte} {k : Nat} (hk : k < text.length) :
    ((streamChecksum text).getD k 0).toNat = checksumNibble text.length (fun j => (text.getD j 0).toNat) k := by
  have hne : text ≠ [] := List.ne_nil_of_length_pos (by omega)
  rw [getD_streamChecksum hk, nibbleOf_toNat, magicOf_toNat text hne, checksumNibble]

/-- Settles O50: one nibble for each character, and each nibble as a number. -/
theorem streamChecksumFollowsItsFormula : Obligations.StreamChecksumFollowsItsFormula :=
  fun text => ⟨length_streamChecksum text, fun _ => toNat_getD_streamChecksum⟩

/-- The checksum of the string of the characters `c 0`, ..., `c (n - 1)`. -/
theorem streamChecksum_range (n : Nat) (c : Nat → Byte) :
    streamChecksum ((List.range n).map c) =
      (List.range n).map fun k => BitVec.ofNat 4 (checksumNibble n (fun j => (c j).toNat) k) := by
  refine List.ext_getElem (by simp [length_streamChecksum]) fun k hk hk' => ?_
  have hlt : k < n := by simpa using hk'
  have hnumber := toNat_getD_streamChecksum (text := (List.range n).map c) (k := k) (by simpa using hlt)
  have hcongr : checksumNibble n (fun j => (((List.range n).map c).getD j 0).toNat) k =
      checksumNibble n (fun j => (c j).toNat) k := checksumNibble_congr hlt fun j hj => by simp [hj]
  rw [List.getD_eq_getElem _ _ hk, List.length_map, List.length_range, hcongr] at hnumber
  rw [List.getElem_map, List.getElem_range, ← hnumber, BitVec.ofNat_toNat, BitVec.setWidth_eq]

/-! ## Embedding and extraction (R232, R233) -/

theorem extractCode_embed (c : Byte) (k : BitVec 4) : extractCode (embed c k) = c :=
  BitVec.eq_of_toNat_eq (by rw [extractCode_toNat, embed_toNat, code_embed c.isLt k.isLt])

theorem extractNibble_embed (c : Byte) (k : BitVec 4) : extractNibble (embed c k) = k :=
  BitVec.eq_of_toNat_eq (by rw [extractNibble_toNat, embed_toNat, nibble_embed c.isLt k.isLt])

theorem embed_extract (r : BitVec 12) : embed (extractCode r) (extractNibble r) = r :=
  BitVec.eq_of_toNat_eq (by rw [embed_toNat, extractCode_toNat, extractNibble_toNat, embed_code_nibble r.isLt])

/-- Settles O51: extraction is the inverse of embedding on both sides, so the pair is the one extracted. -/
theorem embeddingIsABijection : Obligations.EmbeddingIsABijection := by
  refine ⟨fun c k => ⟨extractCode_embed c k, extractNibble_embed c k, embed_toNat c k⟩,
    fun r => ⟨extractCode_toNat r, extractNibble_toNat r⟩,
    fun r => ⟨extractCode r, extractNibble r, embed_extract r, ?_⟩⟩
  rintro d l rfl
  exact ⟨(extractCode_embed d l).symm, (extractNibble_embed d l).symm⟩

/-- A code and a nibble embed in 12 bits. -/
theorem embedNumber_lt {c k : Nat} (hc : c < 256) (hk : k < 16) : embedNumber c k < 2 ^ 12 := by
  unfold embedNumber; omega

end Sys2Proof.Machine
end

section
/-! PROOFS. The checksum nibbles of the operands: CHKSUM and ENC.CHR (42_character.md R235, R237). -/

namespace Sys2Proof.Machine

/-- R230: the checksum nibble of operand `k`, the operands being the characters of a string. -/
def State.nibbleAt (s : State) (k : Nat) : Nat := checksumNibble s.count.toNat (fun j => (s.rawAt j).toNat) k

theorem State.nibbleAt_lt (s : State) (k : Nat) : s.nibbleAt k < 16 := checksumNibble_lt ..

/-- R235, R237: AUX of each operand holds its nibble with M = 0; the rest of the value buffer is as before. -/
def NibblesStored (s t : State) : Prop :=
  (∀ k, t.rawAt k = s.rawAt k ∧ t.widthAt k = s.widthAt k) ∧
  ∀ k, t.auxAt k = if k < s.count.toNat then BitVec.ofNat 5 (s.nibbleAt k) else s.auxAt k

theorem checkOperand_character_of_lt {k : Nat} {v : BitVec 64} (h : v.toNat < 256) : checkOperand .character k v = none :=
  if_pos h

theorem checkOperand_character_of_le {k : Nat} {v : BitVec 64} (h : 256 ≤ v.toNat) :
    checkOperand .character k v = some (errorAt .value k v) :=
  if_neg (by omega)

/-- A success that left STATUS for `done()` to write (R301). -/
theorem completedFrom_done {s t : State} (h : t.status = s.status) : CompletedFrom s t.done :=
  ⟨by rw [done_status, h]; rfl, rfl, rfl⟩

section
variable {s : State} (h : ∀ k < s.count.toNat, (s.rawAt k).toNat < 256)
include h

/-- The checksum of operands that are characters. -/
theorem streamChecksum_operandText :
    streamChecksum (operandText s) = (List.range s.count.toNat).map fun k => BitVec.ofNat 4 (s.nibbleAt k) := by
  rw [operandText_eq, streamChecksum_range]
  refine List.map_congr_left fun k hk => congrArg (BitVec.ofNat 4) ?_
  exact checksumNibble_congr (List.mem_range.1 hk) fun j hj => toNat_setWidth_byte _ (h j hj)

/-- The fields of ENC.CHR: each character with its nibble embedded (R235). -/
theorem wireText_operandText :
    wireText (operandText s) =
      (List.range s.count.toNat).map fun k => (12, embedNumber (s.rawAt k).toNat (s.nibbleAt k)) := by
  rw [wireText, streamChecksum_operandText h, operandText_eq, List.zipWith_map, List.zipWith_self, List.map_map]
  refine List.map_congr_left fun k hk => ?_
  rw [Function.comp_apply, embed_toNat, toNat_setWidth_byte _ (h k (List.mem_range.1 hk)), BitVec.toNat_ofNat,
    Nat.mod_eq_of_lt (s.nibbleAt_lt k)]

/-- What ENC.CHR and CHKSUM store into the value buffer. -/
theorem nibblesStored_storeAux :
    NibblesStored s (s.storeAux ((streamChecksum (operandText s)).map (auxOf false))) := by
  refine ⟨fun k => ⟨rfl, rfl⟩, fun k => ?_⟩
  rw [storeAux_auxAt, length_checksumAux, streamChecksum_operandText h]
  split
  case isTrue hk =>
    rw [List.getD_eq_getElem _ _ (by simpa using hk)]
    simp [auxOf_false, Nat.mod_eq_of_lt (s.nibbleAt_lt k)]
  case isFalse => rfl

end

/-- An operand that ENC.CHR does not refuse is a character. -/
theorem lt_of_not_refused {v : BitVec 64} (h : (if v.toNat < 256 then none else some (3, v)) = none) : v.toNat < 256 := by
  by_contra hge
  rw [if_neg hge] at h
  cases h

/-- The rule of ENC.CHR: its wire integers are known once every operand has passed its check (R235). -/
theorem encodeRule_encChr (sb : Bool) (s : State) :
    EncodeRule (.encChr sb) sb s (fun _ => 12) (fun k => embedNumber (s.rawAt k).toNat (s.nibbleAt k))
      (fun k => if (s.rawAt k).toNat < 256 then none else some (3, s.rawAt k)) (NibblesStored s) := by
  have hbytes : typedBytes .character sb s = ceilDiv (bitOffset (fun _ => 12) sb s.count.toNat) 8 := by
    rw [bitOffset_const]; rfl
  refine encodeRule_of (check := fun k => checkOperand .character k (s.rawAt k)) (exec_eq _ s) hbytes
    (fun k c v hbad => ?_) (fun k hk => checkOperand_character_of_lt (lt_of_not_refused hk)) fun _ hall => ?_
  · split_ifs at hbad with hchar
    cases hbad
    exact ⟨.value, rfl, checkOperand_character_of_le (by omega)⟩
  · have hchars : ∀ k < s.count.toNat, (s.rawAt k).toNat < 256 := fun k hk => lt_of_not_refused (hall k hk)
    refine ⟨(execEffect (.encChr sb) s).x, ?_, nibblesStored_storeAux hchars⟩
    rw [← wireText_operandText hchars, characterBytes_eq]
    exact execEffect_encode s rfl

/-- Settles O40: the rule of ENC.CHR. -/
theorem encChrEmbedsTheChecksum : Obligations.EncChrEmbedsTheChecksum :=
  ⟨fun sb => decode_specWord (i := .encChr sb) rfl, encodeRule_encChr⟩

/-- Settles O42: the two checks of CHKSUM in their order, then the nibbles. -/
theorem chksumWritesTheNibbles : Obligations.ChksumWritesTheNibbles := by
  refine ⟨decode_specWord (i := .chksum) rfl, fun s => ⟨fun hcount => ?_, fun hcount k hk hbad hgood => ?_,
    fun hcount hchars => ?_⟩⟩
  · have herr : execError .chksum s = some (errorAt .capacity 0 (BitVec.ofNat 64 s.count.toNat)) := by
      rw [execError, chksumError, checkCapacity_of_lt hcount, Option.some_or]
    rw [exec_of_error herr, raise_errorAt]; rfl
  · have herr : execError .chksum s = some (errorAt .value k (s.rawAt k)) := by
      rw [execError, chksumError, checkCapacity_of_le hcount, Option.none_or]
      exact firstError_of_first hk (checkOperand_character_of_le hbad)
        fun j hj => checkOperand_character_of_lt (hgood j hj)
    rw [exec_of_error herr, raise_errorAt]; rfl
  · have hok : execError .chksum s = none := by
      rw [execError, chksumError, checkCapacity_of_le hcount, Option.none_or]
      exact firstError_eq_none.2 fun k hk => checkOperand_character_of_lt (hchars k hk)
    have hx := exec_of_ok hok
    obtain ⟨hentries, haux⟩ := nibblesStored_storeAux hchars
    exact ⟨_, hx, hentries, haux, rfl, rfl, rfl, rfl, completedFrom_done rfl, exec_untouched hx⟩

end Sys2Proof.Machine
end

section
/-! PROOFS. DEC.CHR, and a string decoded from its own encode (42_character.md R236, R238). -/

namespace Sys2Proof.Machine

/-- R236: the nibble in the `k`-th of the `n` wire integers `p` is not the one recomputed over their codes. -/
def nibbleDiffers (n : Nat) (p : Nat → Nat) (k : Nat) : Bool :=
  nibbleNumber (p k) != checksumNibble n (fun j => codeNumber (p j)) k

/-- R236: the AUX field of the `k`-th of the `n` wire integers `p`, its nibble and its mismatch bit. -/
def verifiedNumber (n : Nat) (p : Nat → Nat) (k : Nat) : BitVec 5 :=
  BitVec.ofNat 5 (nibbleNumber (p k) + (nibbleDiffers n p k).toNat * 16)

/-- R236: the entries and MISCNT after a decode of the characters in the `n` wire integers `p`. -/
def DecodedText (n : Nat) (p : Nat → Nat) (s t : State) : Prop :=
  (∀ k < n, t.rawAt k = BitVec.ofNat 64 (codeNumber (p k)) ∧ t.widthAt k = 12 ∧ t.auxAt k = verifiedNumber n p k) ∧
  SameEntriesFrom n s t ∧ t.misCnt = BitVec.ofNat 32 ((List.range n).countP (nibbleDiffers n p))

/-- AUX of a decoded character, as a number. -/
theorem verifiedAux_eq (extracted : BitVec 4) {computed : Nat} (h : computed < 16) :
    verifiedAux extracted (BitVec.ofNat 4 computed) =
      BitVec.ofNat 5 (extracted.toNat + (extracted.toNat != computed).toNat * 16) := by
  have hne : (extracted != BitVec.ofNat 4 computed) = (extracted.toNat != computed) := by
    rw [Bool.eq_iff_iff, bne_iff_ne, bne_iff_ne, ne_eq, ne_eq, ← BitVec.toNat_inj, BitVec.toNat_ofNat, Nat.mod_eq_of_lt h]
  rw [verifiedAux, auxOf_toNat, hne]

/-- The mismatch bit of AUX is M. -/
theorem auxM_verifiedNumber (n : Nat) (p : Nat → Nat) (k : Nat) : auxM (verifiedNumber n p k) = nibbleDiffers n p k := by
  have hnibble : nibbleNumber (p k) < 16 := by unfold nibbleNumber; omega
  have haux := auxOf_toNat (nibbleDiffers n p k) (BitVec.ofNat 4 (nibbleNumber (p k)))
  rw [BitVec.toNat_ofNat, Nat.mod_eq_of_lt hnibble] at haux
  rw [verifiedNumber, ← haux, auxM_auxOf]

/-- DEC.CHR writes the value buffer, MISCNT and COUNT. -/
theorem storeText_frame (wire : List (BitVec 12)) (s : State) :
    storeText wire s = { s with
      x := (storeText wire s).x, misCnt := (storeText wire s).misCnt, count := BitVec.ofNat 32 wire.length } := by
  simp [storeText, State.storeDecode]

section
variable {n : Nat} {p : Nat → Nat} (hp : ∀ k < n, p k < 4096)
include hp

/-- What DEC.CHR stores for the wire integers `p`. -/
theorem storeText_range (s : State) :
    storeText ((List.range n).map fun k => BitVec.ofNat 12 (p k)) s =
      s.storeDecode 12 ((List.range n).map fun k => BitVec.ofNat 64 (codeNumber (p k)))
        ((List.range n).map (verifiedNumber n p)) ((List.range n).countP (nibbleDiffers n p)) := by
  have hwire : ∀ k < n, (BitVec.ofNat 12 (p k)).toNat = p k := fun k hk => by
    rw [BitVec.toNat_ofNat, Nat.mod_eq_of_lt (hp k hk)]
  have hcode : ∀ k < n, (extractCode (BitVec.ofNat 12 (p k))).toNat = codeNumber (p k) := fun k hk => by
    rw [extractCode_toNat, hwire k hk]
  have hvals : (List.range n).map (fun k => (extractCode (BitVec.ofNat 12 (p k))).setWidth 64) =
      (List.range n).map fun k => BitVec.ofNat 64 (codeNumber (p k)) :=
    List.map_congr_left fun k hk => by rw [← hcode k (List.mem_range.1 hk), BitVec.ofNat_toNat]
  have hauxs : List.zipWith verifiedAux ((List.range n).map fun k => extractNibble (BitVec.ofNat 12 (p k)))
      (streamChecksum ((List.range n).map fun k => extractCode (BitVec.ofNat 12 (p k)))) =
      (List.range n).map (verifiedNumber n p) := by
    rw [streamChecksum_range, List.zipWith_map, List.zipWith_self]
    refine List.map_congr_left fun k hk => ?_
    rw [verifiedAux_eq _ (checksumNibble_lt ..), extractNibble_toNat, hwire k (List.mem_range.1 hk),
      checksumNibble_congr (List.mem_range.1 hk) hcode]
    rfl
  have hmis : ((List.range n).map (verifiedNumber n p)).countP auxM = (List.range n).countP (nibbleDiffers n p) := by
    rw [List.countP_map]
    exact congrArg (List.countP · _) (funext (auxM_verifiedNumber n p))
  simp only [storeText, List.map_map, Function.comp_def, hauxs, hvals, hmis]

/-- What DEC.CHR leaves in the value buffer and MISCNT. -/
theorem decodedText_storeText (s : State) :
    DecodedText n p s (storeText ((List.range n).map fun k => BitVec.ofNat 12 (p k)) s) := by
  have hentries := fun k => storeDecode_entries s 12 (vals := (List.range n).map fun k => BitVec.ofNat 64 (codeNumber (p k)))
    (auxs := (List.range n).map (verifiedNumber n p)) ((List.range n).countP (nibbleDiffers n p)) k (by simp)
  simp only [List.length_map, List.length_range] at hentries
  rw [storeText_range hp]
  refine ⟨fun k hk => ?_, fun k hk => ?_, rfl⟩
  · simpa [hk] using hentries k
  · simpa [Nat.not_lt.2 hk] using hentries k

end

/-- The values of a decode's fields are their payloads. -/
theorem inputValues_eq (w : Nat) (sb : Bool) (s : State) :
    inputValues w sb s = (List.range (decodeCount s.inLen.toNat w sb)).map (payload s w sb) := by
  refine List.ext_getElem (by simp) fun k hk hk' => ?_
  rw [← List.getD_eq_getElem _ 0, getD_inputValues (by simpa using hk), List.getElem_map, List.getElem_range]

/-- The rule of DEC.CHR, which accepts every integer (R236). -/
theorem decodeRule_decChr (sb : Bool) (s : State) :
    DecodeRule (.decChr sb) sb s 12 (fun _ => True)
      (DecodedText (decodeCount s.inLen.toNat 12 sb) (payload s 12 sb) s) := by
  refine decodeRule_of rfl (fun _ _ hno => absurd trivial hno) (fun _ _ _ => rfl) fun _ _ => ?_
  have hpayload : ∀ k < decodeCount s.inLen.toNat 12 sb, payload s 12 sb k < 4096 := fun k _ => payload_lt s 12 sb k
  have hframe := storeText_frame ((inputValues 12 sb s).map (BitVec.ofNat 12)) s
  rw [List.length_map, length_inputValues] at hframe
  refine ⟨_, _, hframe, ?_⟩
  rw [wireWidth, inputValues_eq, List.map_map]
  exact decodedText_storeText hpayload s

/-- Settles O41: the rule of DEC.CHR. -/
theorem decChrExtractsAndVerifies : Obligations.DecChrExtractsAndVerifies :=
  ⟨fun sb => decode_specWord (i := .decChr sb) rfl, decodeRule_decChr⟩

/-! ## The round trip (R238) -/

/-- The wire integers of a string carry the nibbles recomputed over their codes. -/
theorem nibbleDiffers_embed {n : Nat} {c p : Nat → Nat} (hc : ∀ k < n, c k < 256)
    (hp : ∀ k < n, p k = embedNumber (c k) (checksumNibble n c k)) {k : Nat} (hk : k < n) : nibbleDiffers n p k = false := by
  have hcode : ∀ j < n, codeNumber (p j) = c j := fun j hj => by
    rw [hp j hj, code_embed (hc j hj) (checksumNibble_lt ..)]
  rw [nibbleDiffers, hp k hk, nibble_embed (hc k hk) (checksumNibble_lt ..), checksumNibble_congr hk hcode]
  exact bne_self_eq_false _

/-- DEC.CHR of the chunk of a string with its checksum embedded returns the string and its nibbles. -/
theorem State.HoldsChunk.decode_text {u : State} {n : Nat} {c : Nat → Nat} {sb : Bool}
    (h : u.HoldsChunk n 12 (fun k => embedNumber (c k) (checksumNibble n c k)) sb) (hc : ∀ k < n, c k < 256) :
    ∃ v, exec (.decChr sb) u = .next v ∧ statusErr v.status = false ∧ v.count = BitVec.ofNat 32 n ∧ v.misCnt = 0 ∧
      ∀ k < n, v.rawAt k = BitVec.ofNat 64 (c k) ∧ v.auxAt k = BitVec.ofNat 5 (checksumNibble n c k) := by
  obtain ⟨hcount, hfields⟩ := payload_of_chunk h.chunk h.inLen (fun _ _ => rfl) (by rw [h.inLen]; omega)
  have hpayload : ∀ k < n, payload u 12 sb k = embedNumber (c k) (checksumNibble n c k) := fun k hk => by
    obtain ⟨hvalue, -⟩ := hfields k hk
    rw [hvalue, Nat.mod_eq_of_lt (embedNumber_lt (hc k hk) (checksumNibble_lt ..))]
  have hsame : ∀ k < n, nibbleDiffers n (payload u 12 sb) k = false := fun k hk => nibbleDiffers_embed hc hpayload hk
  have hnone : (List.range n).countP (nibbleDiffers n (payload u 12 sb)) = 0 :=
    List.countP_eq_zero.2 fun k hk => by simp [hsame k (List.mem_range.1 hk)]
  obtain ⟨-, -, -, -, hsuccess⟩ := decodeRule_decChr sb u
  rw [hcount] at hsuccess
  obtain ⟨v, hv, hvcount, ⟨hentries, -, hmis⟩, -, -, hdone, -⟩ := hsuccess h.bytes h.count
    (fun hsb k hk => (hfields k hk).2 hsb) fun _ _ => trivial
  refine ⟨v, hv, statusErr_of_completed hdone, hvcount, by rw [hmis, hnone]; rfl, fun k hk => ?_⟩
  obtain ⟨hraw, -, haux⟩ := hentries k hk
  constructor
  · rw [hraw, hpayload k hk, code_embed (hc k hk) (checksumNibble_lt ..)]
  · rw [haux, verifiedNumber, hsame k hk, hpayload k hk, nibble_embed (hc k hk) (checksumNibble_lt ..)]; rfl

/-- Settles O46: what is copied is the chunk of the string with its checksum embedded. -/
theorem characterStringsVerifyThemselves : Obligations.CharacterStringsVerifyThemselves := by
  intro sb s t u hp hx hok hcopy
  have hrule := encodeRule_encChr sb s
  obtain ⟨-, hnone, -, -, -, ⟨-, haux⟩, -⟩ := encode_success hrule hx hok
  have hchars : ∀ k < s.count.toNat, (s.rawAt k).toNat < 256 := fun k hk => lt_of_not_refused (hnone k hk)
  obtain ⟨v, hv, hvok, hvcount, hmis, hentries⟩ :=
    (State.holdsChunk_of_encode hrule hp (fun _ _ => rfl) hx hok hcopy).decode_text hchars
  refine ⟨v, hv, hvok, by simp [hvcount], hmis, fun k hk => ?_⟩
  obtain ⟨hraw, hvaux⟩ := hentries k hk
  rw [hraw, hvaux, haux k, if_pos hk, BitVec.ofNat_toNat, BitVec.setWidth_eq]
  exact ⟨rfl, rfl⟩

end Sys2Proof.Machine
end

section
/-! PROOFS. The control command CLR and the words that stand for no command (43_control.md R270, R271). -/

namespace Sys2Proof.Machine

/-! ## CLR (R270) -/

/-- STATUS with MISCNT 0 and STICKY cleared is DONE alone. -/
theorem successStatus_clearSticky (st : Word) : successStatus false (statusSticky (clearSticky st)) = 0x00000001#32 := by
  rw [statusSticky_clearSticky]; decide

/-- CLR clears MISCNT and STICKY before `done()` writes STATUS from them. -/
theorem execEffect_clr_done (s : State) :
    (execEffect .clr s).done = { s with misCnt := 0, status := 0x00000001#32, errIdx := 0, errVal := 0 } := by
  have hstatus : (execEffect .clr s).done.status = 0x00000001#32 :=
    (State.done_status _).trans (successStatus_clearSticky s.status)
  exact State.ext rfl rfl hstatus rfl rfl rfl rfl rfl rfl rfl rfl rfl rfl rfl rfl

/-- Settles O43: CLR has no error, and its effect ends in the cleared status. -/
theorem clrClearsTheStatus : Obligations.ClrClearsTheStatus := by
  refine ⟨decode_specWord (i := .clr) rfl, fun s => ?_⟩
  have hok : execError .clr s = none := rfl
  rw [exec_of_ok hok, execEffect_clr_done]

/-! ## Words without a command (R271) -/

/-- Settles O7: the illegal word's error is `E_CMD`, whose code is 1, at index 0. -/
theorem illegalWordRaisesECmd : Obligations.IllegalWordRaisesECmd := by
  intro s c hillegal
  rw [runWord_of_illegal s hillegal, raise_errorAt]
  rfl

end Sys2Proof.Machine
end

section
/-! PROOFS. How commands end: in success or in one of the errors of R303, and what happens to STICKY
(60_exceptions.md R300 to R303, R312). -/

namespace Sys2Proof.Machine

/-! ## The STATUS word of an error and of a success -/

theorem ErrCode.one_le_code (c : ErrCode) : 1 ≤ c.code.toNat := by cases c <;> decide

/-- Every error, in the terms of the claims (R302). -/
theorem raise_eq_failed (s : State) (e : CmdError) : s.raise e = s.failed e.code.code.toNat e.idx.toNat e.val := by
  simp only [State.raise, State.failed, errorStatus_eq, BitVec.ofNat_toNat, BitVec.setWidth_eq]

/-- Every effect but CLR's leaves STICKY to `done()` as it was (R270, R301). -/
theorem statusSticky_execEffect (i : Instr) (s : State) :
    statusSticky (execEffect i s).status = if i = .clr then false else statusSticky s.status := by
  obtain ⟨-, -, -, -, -, -, -, hstatus⟩ := execEffect_frame i s
  rw [hstatus]
  split
  · exact statusSticky_clearSticky _
  · rfl

/-- The STICKY bit of the word a success writes (R270, R301). -/
theorem execEffect_status_and_sticky (i : Instr) (s : State) :
    (execEffect i s).status &&& 0x100#32 = if i = .clr then 0#32 else s.status &&& 0x100#32 := by
  rw [sticky_word, statusSticky_execEffect, sticky_word s.status]
  split <;> rfl

/-! ## How a command ends (R300 to R303) -/

/-- A command that leaves ERR set has raised its error. -/
theorem exec_error {i : Instr} {s t : State} (h : exec i s = .next t) (herr : statusErr t.status = true) :
    ∃ e, execError i s = some e ∧ t = s.raise e := by
  rcases exec_cases h with herror | ⟨-, rfl⟩
  · exact herror
  · simp at herr

/-- A command that leaves ERR 0 has had its effect. -/
theorem exec_success {i : Instr} {s t : State} (h : exec i s = .next t) (hok : statusErr t.status = false) :
    t = (execEffect i s).done := by
  rcases exec_cases h with ⟨e, -, rfl⟩ | ⟨-, ht⟩
  · simp at hok
  · exact ht

/-- A command word, legal or not, that leaves ERR set has raised an error. -/
theorem runWord_error {c : Word} {s t : State} (h : runWord c s = .next t) (herr : statusErr t.status = true) :
    ∃ e, t = s.raise e := by
  rcases runWord_cases h with ⟨i, -, hexec⟩ | ⟨-, ht⟩
  · obtain ⟨e, -, ht⟩ := exec_error hexec herr
    exact ⟨e, ht⟩
  · exact ⟨_, ht⟩

/-- Settles O22: a command has an error, which is one of its own, or it has none and is done. -/
theorem everyCommandEndsInANextState : Obligations.EveryCommandEndsInANextState := by
  intro i s
  cases herror : execError i s with
  | none =>
    exact ⟨_, exec_of_ok herror, statusDone_successStatus _ _, .inl ⟨statusErr_successStatus _ _, rfl, rfl⟩⟩
  | some e =>
    exact ⟨_, exec_of_error herror, statusDone_errorStatus _,
      .inr ⟨_, execError_code herror, _, _, raise_eq_failed s e⟩⟩

/-- Settles O23: a word that leaves ERR set ends in `raise`, which writes these three registers alone. -/
theorem errorsAreAtomic : Obligations.ErrorsAreAtomic := by
  intro c s t h herr
  obtain ⟨e, rfl⟩ := runWord_error h herr
  exact ⟨rfl, statusSticky_errorStatus _, _, e.code.one_le_code, e.code.code_le, errorStatus_eq _⟩

/-- Settles O24: a command that leaves ERR 0 ends in `done()`, after an effect that keeps STICKY or, for CLR, clears it. -/
theorem successStatusWord : Obligations.SuccessStatusWord := by
  intro i s t h hok
  obtain rfl := exec_success h hok
  refine ⟨rfl, rfl, ?_⟩
  rw [done_status, execEffect_status_and_sticky, State.done_misCnt]

/-- Settles O25: the command raised an error of its own, and ECODE is that error's code. -/
theorem commandsRaiseOnlyTheirErrors : Obligations.CommandsRaiseOnlyTheirErrors := by
  intro i s t h herr
  obtain ⟨e, herror, rfl⟩ := exec_error h herr
  rw [State.raise_status, statusEcode_errorStatus]
  exact execError_code herror

/-! ## STICKY over a step (R312) -/

/-- Storing a 32-bit word changes no STATUS: the host cannot write it (R50, R90). -/
theorem writeWord_status (s : State) (w : Word) (g : WordTarget) : (writeWord s w g).status = s.status := by
  cases g with
  | reg r => cases r <;> rfl
  | _ => rfl

/-- Nor does storing a byte (R90). -/
theorem writeByte_status (s : State) (b : Byte) (g : ByteTarget) : (writeByte s b g).status = s.status := by
  cases g <;> rfl

/-- Every command but CLR keeps STICKY set (R301, R302). -/
theorem exec_keeps_sticky {i : Instr} {s t : State} (h : exec i s = .next t) (hi : i ≠ .clr)
    (hsticky : statusSticky s.status = true) : statusSticky t.status = true := by
  rcases exec_cases h with ⟨e, -, rfl⟩ | ⟨-, rfl⟩
  · exact statusSticky_errorStatus _
  · rw [State.done_status, statusSticky_successStatus, statusSticky_execEffect, if_neg hi, hsticky]

/-- The word of CLR is the only one that clears STICKY (R270). -/
theorem runWord_keeps_sticky {c : Word} {s t : State} (h : runWord c s = .next t) (hc : c ≠ 0x00000006#32)
    (hsticky : statusSticky s.status = true) : statusSticky t.status = true := by
  rcases runWord_cases h with ⟨i, hdec, hexec⟩ | ⟨-, rfl⟩
  · refine exec_keeps_sticky hexec ?_ hsticky
    rintro rfl
    obtain ⟨-, hword⟩ := (legalWordsAreTheListedOnes c .clr).1 hdec
    exact hc hword
  · exact statusSticky_errorStatus _

/-- A step keeps STICKY set, unless its event is a reset or CLR's word written to CMD: an access that runs no command keeps STATUS,
and every other word keeps STICKY set. -/
theorem step_keeps_sticky {s t : State} (h : step s = .next t) (hsticky : statusSticky s.status = true) :
    statusSticky t.status = true ∨
      ∃ rest, s.host = .reset :: rest ∨ s.host = .writeWord 0x0000C#19 0x00000006#32 :: rest := by
  rcases step_cases h with ⟨-, rfl⟩ | ⟨_, _, _, -, -, rfl⟩ | ⟨_, _, _, -, -, rfl⟩ |
    ⟨_, w, g, _, -, -, -, rfl⟩ | ⟨a, w, rest, hs, hcmd, hrun⟩ | ⟨_, b, g, _, -, -, rfl⟩ | ⟨rest, hs, -⟩
  · exact .inl hsticky
  · exact .inl hsticky
  · exact .inl hsticky
  · exact .inl (by rwa [writeWord_status])
  · obtain rfl := locateWord_eq_cmd hcmd
    by_cases hw : w = 0x00000006#32
    · exact .inr ⟨rest, .inr (hw ▸ hs)⟩
    · exact .inl (runWord_keeps_sticky hrun hw hsticky)
  · exact .inl (by rwa [writeByte_status])
  · exact .inr ⟨rest, .inl hs⟩

/-- Settles O26: every other event would have kept STICKY set. -/
theorem stickyIsClearedOnlyByClrAndReset : Obligations.StickyIsClearedOnlyByClrAndReset := by
  intro s t h hset hclear
  refine (step_keeps_sticky h (by simpa using hset)).resolve_left ?_
  simp [hclear]

end Sys2Proof.Machine
end

section
/-! PROOFS. A reset, and the free draws of the cells nobody has written since (70_reset_and_hazards.md R340, R341, R343). -/

namespace Sys2Proof.Machine

/-! ## Reset (R340, R341) -/

/-- The step of a reset resets the block that the event was taken from. -/
theorem step_reset {s : State} {rest : List HostEvent} (hs : s.host = .reset :: rest) :
    step s = .next s.afterEvent.resetBlock := by
  rw [step, hs]; rfl

/-- Settles O19, register by register. -/
theorem resetStateHoldsTheResetValues : Obligations.ResetStateHoldsTheResetValues :=
  fun _ _ => ⟨rfl, rfl, rfl, rfl, rfl, rfl, rfl, rfl, rfl, rfl, rfl⟩

/-- Settles O17: the registers are those of `State.resetWith`, whatever they were. -/
theorem resetSetsTheRegisters : Obligations.ResetSetsTheRegisters :=
  fun s _ hs => ⟨_, step_reset hs, resetStateHoldsTheResetValues s.params (s.drawNo + 1)⟩

/-- The draw of `x[i].raw` gives both halves of an unwritten `raw` (log 7). -/
theorem rawAt_of_unwritten {s : State} {i : Nat} (hlo : s.x.rawLo.find i = none) (hhi : s.x.rawHi.find i = none) :
    s.rawAt i = Config.drawRaw s.drawNo i := by
  rw [State.rawAt, State.rawLoAt, State.rawHiAt, hlo, hhi, Option.getD_none, Option.getD_none,
    BitVec.setWidth_eq_extractLsb' (by decide)]
  exact (BitVec.extractLsb'_append_extractLsb'_eq_extractLsb' rfl).trans BitVec.extractLsb'_eq_self

/-- Settles O18: no cell of the three buffers is written. -/
theorem resetRedrawsTheBuffers : Obligations.ResetRedrawsTheBuffers := by
  intro s rest hs
  have hhost : s.afterEvent.host = rest := by rw [State.afterEvent_host, hs]; rfl
  exact ⟨_, step_reset hs, rfl, hhost, rfl, fun k => ⟨rawAt_of_unwritten rfl rfl, rfl, rfl, rfl, rfl⟩⟩

/-! ## Another draw -/

/-- `s` with the draws of reset number `k` in its unwritten cells. -/
def State.withDraw (s : State) (k : Nat) : State := { s with drawNo := k }

section
variable {s : State} {k i : Nat}

@[simp] theorem State.withDraw_params : (s.withDraw k).params = s.params := rfl
@[simp] theorem State.withDraw_count : (s.withDraw k).count = s.count := rfl
@[simp] theorem State.withDraw_inLen : (s.withDraw k).inLen = s.inLen := rfl

/-! A written cell does not depend on the draw. -/

theorem getD_of_written {α : Type} {cell : Option α} (h : cell.isSome) (a b : α) : cell.getD a = cell.getD b := by
  obtain ⟨v, rfl⟩ := Option.isSome_iff_exists.1 h
  rfl

theorem rawAt_withDraw (hlo : (s.x.rawLo.find i).isSome) (hhi : (s.x.rawHi.find i).isSome) :
    (s.withDraw k).rawAt i = s.rawAt i :=
  congrArg₂ (fun hi lo : Word => hi ++ lo) (getD_of_written hhi _ _) (getD_of_written hlo _ _)

theorem widthAt_withDraw (h : (s.x.width.find i).isSome) : (s.withDraw k).widthAt i = s.widthAt i :=
  getD_of_written h _ _

/-- Written operands read alike in any draw. -/
theorem operands_withDraw (h : ∀ i < s.count.toNat, (s.x.rawLo.find i).isSome ∧ (s.x.rawHi.find i).isSome) (k : Nat) :
    ∀ i < s.count.toNat, (s.withDraw k).rawAt i = s.rawAt i := fun i hi =>
  let ⟨hlo, hhi⟩ := h i hi
  rawAt_withDraw hlo hhi

/-- A written input reads alike in any draw. -/
theorem input_withDraw (h : ∀ j < s.inLen.toNat, (Sparse.find s.ibuf j).isSome) (k : Nat) :
    ∀ j < s.inLen.toNat, (s.withDraw k).ibufAt j = s.ibufAt j :=
  fun j hj => getD_of_written (h j hj) _ _

end

/-! ### Encodes and CHKSUM: the operands are written (R343) -/

section
variable {s : State} {k : Nat}

/-- Two encodes fail alike when every entry below COUNT and the number of bytes are checked alike. -/
theorem encodeError_withDraw {check check' : Nat → Option CmdError} {L L' : Nat}
    (hcheck : ∀ i < s.count.toNat, check' i = check i) (hL : L' = L) :
    encodeError check' L' (s.withDraw k) = encodeError check L s := by
  rw [encodeError, encodeError, State.withDraw_count, State.withDraw_params, firstError_congr hcheck, hL]

variable (hraw : ∀ i < s.count.toNat, (s.withDraw k).rawAt i = s.rawAt i)
include hraw

theorem raws_withDraw : (s.withDraw k).raws s.count.toNat = s.raws s.count.toNat :=
  List.map_eq_map_iff.2 fun i hi => hraw i (List.mem_range.1 hi)

theorem operandText_withDraw : operandText (s.withDraw k) = operandText s := by
  rw [operandText, State.withDraw_count, raws_withDraw hraw]; rfl

theorem typedFields_withDraw (ty : ProtoType) : typedFields ty (s.withDraw k) = typedFields ty s := by
  rw [typedFields, State.withDraw_count, raws_withDraw hraw]; rfl

theorem typedEncodeError_withDraw (ty : ProtoType) (sb : Bool) :
    typedEncodeError ty sb (s.withDraw k) = typedEncodeError ty sb s :=
  encodeError_withDraw (fun i hi => by rw [hraw i hi]) rfl

theorem chksumError_withDraw : chksumError (s.withDraw k) = chksumError s := by
  have hcheck : ∀ i < s.count.toNat,
      checkOperand .character i ((s.withDraw k).rawAt i) = checkOperand .character i (s.rawAt i) :=
    fun i hi => by rw [hraw i hi]
  rw [chksumError, State.withDraw_count, firstError_congr hcheck]; rfl

variable (hwidth : ∀ i < s.count.toNat, (s.withDraw k).widthAt i = s.widthAt i)
include hwidth

theorem entryFields_withDraw : entryFields (s.withDraw k) = entryFields s :=
  List.map_eq_map_iff.2 fun i hi => by
    rw [hraw i (List.mem_range.1 hi), hwidth i (List.mem_range.1 hi)]

theorem bencError_withDraw (sb : Bool) :
    encodeError (checkEntry (s.withDraw k)) (entryBytes sb (s.withDraw k)) (s.withDraw k) =
      encodeError (checkEntry s) (entryBytes sb s) s := by
  refine encodeError_withDraw (fun i hi => ?_) ?_
  · rw [checkEntry, hraw i hi, hwidth i hi]; rfl
  · rw [entryBytes_eq, entryFields_withDraw hraw hwidth, entryBytes_eq]

end

/-! ### Decodes: the input bytes are written (R343) -/

section
variable {s : State} {k : Nat} (hibuf : ∀ j < s.inLen.toNat, (s.withDraw k).ibufAt j = s.ibufAt j)
include hibuf

theorem inputFields_withDraw (w : Nat) (sb : Bool) : inputFields w sb (s.withDraw k) = inputFields w sb s :=
  congrArg (unframe · sb w) (List.map_eq_map_iff.2 fun j hj => hibuf j (List.mem_range.1 hj))

theorem inputValues_withDraw (w : Nat) (sb : Bool) : inputValues w sb (s.withDraw k) = inputValues w sb s := by
  rw [inputValues, inputFields_withDraw hibuf]; rfl

theorem decodeError_withDraw (w : Nat) (sb : Bool) (accept : Nat → Nat → Option CmdError) :
    decodeError w sb accept (s.withDraw k) = decodeError w sb accept s := by
  rw [decodeError, inputValues_withDraw hibuf, inputFields_withDraw hibuf]; rfl

theorem decodeValues_withDraw (w : Nat) (sb : Bool) :
    decodeValues w sb (s.withDraw k) = (decodeValues w sb s).withDraw k := by
  rw [decodeValues, inputValues_withDraw hibuf]; rfl

end

/-! ### Every command -/

/-- With its inputs written, a command fails alike in any draw, and its effect differs in the draw's number alone. -/
theorem exec_withDraw {i : Instr} {s : State} (h : s.InputsWritten i) (k : Nat) :
    execError i (s.withDraw k) = execError i s ∧ execEffect i (s.withDraw k) = (execEffect i s).withDraw k := by
  cases i with
  | benc sb =>
    have hraw : ∀ j < s.count.toNat, (s.withDraw k).rawAt j = s.rawAt j := fun j hj =>
      let ⟨hlo, hhi, _⟩ := h j hj
      rawAt_withDraw hlo hhi
    have hwidth : ∀ j < s.count.toNat, (s.withDraw k).widthAt j = s.widthAt j := fun j hj =>
      let ⟨_, _, hwritten⟩ := h j hj
      widthAt_withDraw hwritten
    exact ⟨bencError_withDraw hraw hwidth sb, by rw [execEffect, entryFields_withDraw hraw hwidth]; rfl⟩
  | encHs sb | encVer sb | encNum sb | encRs sb =>
    have hraw := operands_withDraw h k
    exact ⟨typedEncodeError_withDraw hraw _ sb, by rw [execEffect, typedFields_withDraw hraw]; rfl⟩
  | encChr sb =>
    have hraw := operands_withDraw h k
    exact ⟨typedEncodeError_withDraw hraw _ sb, by rw [execEffect, operandText_withDraw hraw]; rfl⟩
  | chksum =>
    have hraw := operands_withDraw h k
    exact ⟨chksumError_withDraw hraw, by rw [execEffect, operandText_withDraw hraw]; rfl⟩
  | bdec sb w =>
    have hibuf := input_withDraw h k
    exact ⟨congrArg (checkWidth w).or (decodeError_withDraw hibuf w sb _), decodeValues_withDraw hibuf w sb⟩
  | decHs sb | decVer sb | decNum sb | decRs sb =>
    have hibuf := input_withDraw h k
    exact ⟨decodeError_withDraw hibuf _ sb _, decodeValues_withDraw hibuf _ sb⟩
  | decChr sb =>
    have hibuf := input_withDraw h k
    exact ⟨decodeError_withDraw hibuf _ sb _, by rw [execEffect, inputValues_withDraw hibuf]; rfl⟩
  | clr => exact ⟨rfl, rfl⟩

/-- Settles O54: both runs end in the same error or with the same effect. -/
theorem writtenInputsMakeDrawsIrrelevant : Obligations.WrittenInputsMakeDrawsIrrelevant := by
  intro i s t k h hx
  obtain ⟨herr, heff⟩ := exec_withDraw h k
  change exec i (s.withDraw k) = .next (t.withDraw k)
  rcases exec_cases hx with ⟨e, he, rfl⟩ | ⟨hok, rfl⟩
  · exact exec_of_error (herr.trans he)
  · rw [exec_of_ok (herr.trans hok), heff]; rfl

end Sys2Proof.Machine
end
